-- ==== Sys2Proof/Word.lean ====
section
/-! DEFINITION. The one word of the machine: an unsigned byte (00_scope R5, R7). Registers, memory cells, operand
bytes, `pc`, `ir` and `flags` are all bytes. -/

namespace Sys2Proof

/-- 8 bits, unsigned, bit 0 least significant (R7). -/
abbrev Byte := BitVec 8

end Sys2Proof
end

