-- ==== Sys2Proof/Syntax.lean ====
section
/-! DEFINITION. The instructions: one constructor for each of the twelve rows of spec/opcode_table.json. Operands are
the whole operand bytes (30_encoding R53, R54, R57): an index or an address that is out of range is still an operand,
and the instruction's rule says what it does. -/

namespace Sys2Proof

/-- The five instructions of 30_encoding R55 and the seven rows that together are the opcodes 0x05 to 0xFF (R58). A row
of several opcodes carries the opcode byte it was decoded from, because UnknownInstruction reports it whole (R81). -/
inductive Instr where
  /-- 0x00 NOOP (R80). -/
  | noop
  /-- 0x01 LOAD reg, value (R85). -/
  | load (reg value : Byte)
  /-- 0x02 ADD reg1, reg2 (R90). -/
  | add (reg1 reg2 : Byte)
  /-- 0x03 SUB reg1, reg2 (R91). -/
  | sub (reg1 reg2 : Byte)
  /-- 0x04 JUMP address (R100). -/
  | jump (address : Byte)
  /-- 0x05 (R81). -/
  | unknown05
  /-- 0x06 and 0x07 (R81). -/
  | unknown06 (op : Byte)
  /-- 0x08 to 0x0F (R81). -/
  | unknown08 (op : Byte)
  /-- 0x10 to 0x1F (R81). -/
  | unknown10 (op : Byte)
  /-- 0x20 to 0x3F (R81). -/
  | unknown20 (op : Byte)
  /-- 0x40 to 0x7F (R81). -/
  | unknown40 (op : Byte)
  /-- 0x80 to 0xFF (R81). -/
  | unknown80 (op : Byte)
deriving DecidableEq, Repr

end Sys2Proof
end

