-- ==== Sys2Proof/WellFormed.lean ====
section
/-! DEFINITION. Which terms of `Instr` stand for bytes. Every operand byte is legal (30_encoding R58), so the only
check is that a row of several opcodes carries an opcode of that row, by the row's own match and mask in
spec/opcode_table.json. -/

namespace Sys2Proof

/-- The opcode byte `op` lies in the row of the table with these `mask` and `pat` ("mask", "match"). -/
def inRow (mask pat op : Byte) : Bool := (op &&& mask) == pat

/-- The term stands for an encoding of the table. -/
def Instr.wellFormed : Instr → Bool
  | .noop | .load _ _ | .add _ _ | .sub _ _ | .jump _ | .unknown05 => true
  | .unknown06 op => inRow 0xFE 0x06 op
  | .unknown08 op => inRow 0xF8 0x08 op
  | .unknown10 op => inRow 0xF0 0x10 op
  | .unknown20 op => inRow 0xE0 0x20 op
  | .unknown40 op => inRow 0xC0 0x40 op
  | .unknown80 op => inRow 0x80 0x80 op

end Sys2Proof
end

