-- ==== Sys2Proof/Decode.lean ====
section
/-! DEFINITION. From bytes to instructions (30_encoding R50 to R59), and after it the encoder. The decoder is total: the
opcode byte alone selects the row and the length (R51, R56), every opcode byte has a row (R58), and the only way to be
rejected is to have too few bytes. -/

namespace Sys2Proof

/-- The rows of spec/opcode_table.json, as the opcode byte selects them. -/
inductive Row where
  | noop | load | add | sub | jump
  | unknown05 | unknown06 | unknown08 | unknown10 | unknown20 | unknown40 | unknown80
deriving DecidableEq, Repr

/-- The row an opcode byte selects (R55, R56): all 8 bits are compared, and 0x05 to 0xFF are unknown (R58). -/
def Row.ofOpcode (op : Byte) : Row :=
  if op = 0x00 then .noop
  else if op = 0x01 then .load
  else if op = 0x02 then .add
  else if op = 0x03 then .sub
  else if op = 0x04 then .jump
  else if op = 0x05 then .unknown05
  else if op < 0x08 then .unknown06
  else if op < 0x10 then .unknown08
  else if op < 0x20 then .unknown10
  else if op < 0x40 then .unknown20
  else if op < 0x80 then .unknown40
  else .unknown80

/-- The instruction length in bytes (R51): 3 for format B, 2 for format A, 1 for format N. -/
def Row.length : Row → Nat
  | .load | .add | .sub => 3
  | .jump => 2
  | .noop | .unknown05 | .unknown06 | .unknown08 | .unknown10 | .unknown20 | .unknown40 | .unknown80 => 1

/-- The length an opcode byte decides (R51). -/
def opcodeLength (op : Byte) : Nat := (Row.ofOpcode op).length

/-- Rejection: an opcode whose operand bytes are not all there. `length` is the instruction's length, which the
abandoned instruction still advances by (40_cycle R71). -/
structure Truncated where
  length : Nat
deriving DecidableEq, Repr

/-- Why bytes are rejected: there is no opcode byte, or an operand byte is missing. -/
inductive Rejection where
  | empty
  | truncated (t : Truncated)
deriving DecidableEq, Repr

/-- The instruction of opcode `op` whose operand bytes lie at the head of `operands`, with the bytes after it
(R52 to R54: opcode, operand 1, operand 2 at ascending addresses). -/
def decodeFrom (op : Byte) (operands : List Byte) : Except Truncated (Instr × List Byte) :=
  match Row.ofOpcode op, operands with
  | .noop, rest => .ok (.noop, rest)
  | .load, reg :: value :: rest => .ok (.load reg value, rest)
  | .load, _ => .error ⟨3⟩
  | .add, reg1 :: reg2 :: rest => .ok (.add reg1 reg2, rest)
  | .add, _ => .error ⟨3⟩
  | .sub, reg1 :: reg2 :: rest => .ok (.sub reg1 reg2, rest)
  | .sub, _ => .error ⟨3⟩
  | .jump, address :: rest => .ok (.jump address, rest)
  | .jump, [] => .error ⟨2⟩
  | .unknown05, rest => .ok (.unknown05, rest)
  | .unknown06, rest => .ok (.unknown06 op, rest)
  | .unknown08, rest => .ok (.unknown08 op, rest)
  | .unknown10, rest => .ok (.unknown10 op, rest)
  | .unknown20, rest => .ok (.unknown20 op, rest)
  | .unknown40, rest => .ok (.unknown40 op, rest)
  | .unknown80, rest => .ok (.unknown80 op, rest)

/-- The instruction at the head of a list of bytes, lowest address first, with the bytes after it. -/
def decode : List Byte → Except Rejection (Instr × List Byte)
  | [] => .error .empty
  | op :: operands =>
    match decodeFrom op operands with
    | .ok r => .ok r
    | .error t => .error (.truncated t)

/-- The opcode byte of an instruction (R55). -/
def Instr.opcode : Instr → Byte
  | .noop => 0x00
  | .load _ _ => 0x01
  | .add _ _ => 0x02
  | .sub _ _ => 0x03
  | .jump _ => 0x04
  | .unknown05 => 0x05
  | .unknown06 op | .unknown08 op | .unknown10 op | .unknown20 op | .unknown40 op | .unknown80 op => op

/-- The operand bytes of an instruction, ascending (R53, R54). -/
def Instr.operands : Instr → List Byte
  | .load reg value => [reg, value]
  | .add reg1 reg2 | .sub reg1 reg2 => [reg1, reg2]
  | .jump address => [address]
  | .noop | .unknown05 | .unknown06 _ | .unknown08 _ | .unknown10 _ | .unknown20 _ | .unknown40 _ | .unknown80 _ => []

/-- The bytes of an instruction, lowest address first (R50). -/
def encode (i : Instr) : List Byte := i.opcode :: i.operands

/-- The length of an instruction in bytes, as R51's table gives it by format. -/
def Instr.length : Instr → Nat
  | .load _ _ | .add _ _ | .sub _ _ => 3
  | .jump _ => 2
  | .noop | .unknown05 | .unknown06 _ | .unknown08 _ | .unknown10 _ | .unknown20 _ | .unknown40 _ | .unknown80 _ => 1

/-- The three bytes of the number `w` cut to `nbits` bits: the first byte of an instruction is the least significant.
Three bytes is the longest instruction; bits above `nbits` are 0. -/
def tableBytes (nbits w : Nat) : List Byte :=
  let v := w % 2 ^ nbits
  [BitVec.ofNat 8 v, BitVec.ofNat 8 (v / 2 ^ 8), BitVec.ofNat 8 (v / 2 ^ 16)]

/-- What the decoder reads from an instruction whose bits, numbered as spec/opcode_table.json numbers them, are `w`. -/
def decodeTableWord (nbits w : Nat) : Option Instr :=
  match decode (tableBytes nbits w) with
  | .ok (i, _) => some i
  | .error _ => none

end Sys2Proof
end

