-- ==== Sys2Proof/Config.lean ====
section
/-! DEFINITION. The fixed sizes of the hardware (00_scope R5; 93_implementation_defined U12 asks for one place).
No implementation parameter is left open (R6) and no rule leaves a value open (10_state R24), so this file holds no
free value. -/

namespace Sys2Proof.Config

/-- MEM_SIZE: the memory has 16 cells, addresses 0 to 15; it is also the bound of the run loop and of JUMP (R5, R69). -/
abbrev memSize : Nat := 16

/-- NUM_REGS: four general registers, indices 0 to 3 (R5, R10). -/
abbrev numRegs : Nat := 4

end Sys2Proof.Config
end

