-- ==== Sys2Proof/Machine/State.lean ====
section
/-! DEFINITION. The state of the block (10_state R23), the record of its inputs and outputs that the model keeps beside
it, the reasons a step can stop, and the state after reset (R23, 70_reset_and_hazards R140, R141). -/

namespace Sys2Proof.Machine

/-- The memory: (address, byte) pairs in the canonical form of `Memory.wf` (20_memory R30). An address below 16 that is
not listed holds `Memory.unlisted`. -/
abbrev Memory := List Host.Cell

/-- The four general registers (10_state R10): ordinary cells, none hardwired. -/
structure RegFile where
  x0 : Byte
  x1 : Byte
  x2 : Byte
  x3 : Byte
deriving DecidableEq, Repr

/-- `run_state`, the control state of the state machine (10_state R20). -/
inductive RunState where
  /-- No run in progress; host commands are accepted. -/
  | idle
  /-- A run is in progress and the next action is Fetch. -/
  | fetch
  /-- A run is in progress, `ir` holds the opcode at `pc`, and the next action is Execute. -/
  | execute
deriving DecidableEq, Repr

/-- The three diagnostics (60_exceptions R120). -/
inductive Diagnostic where
  | invalidRegister
  | invalidAddress
  | unknownInstruction
deriving DecidableEq, Repr

/-- One event of the diagnostic output (10_state R22): the triple `(code, at, info)`. -/
structure Event where
  /-- `code`, by name; its number is `Diagnostic.code`. -/
  diag : Diagnostic
  /-- `at`: the address of the opcode byte of the instruction that reports. -/
  origin : Byte
  /-- `info`: the offending register index, address or opcode. -/
  info : Byte
deriving DecidableEq, Repr

/-- The status of a command's response (45_host_commands R113). -/
inductive Status where
  | ok
  | invalidRegister
  | invalidAddress
deriving DecidableEq, Repr

/-- A command's response (R113). `data` is absent where R113 calls it meaningless. -/
structure Response where
  status : Status
  data : Option Byte
deriving DecidableEq, Repr

/-- The five host commands, their arguments 8 bits wide (R106 to R110, R112). -/
inductive Command where
  | reset
  | readMemory (addr : Byte)
  | writeMemory (addr value : Byte)
  | readRegister (idx : Byte)
  | run
deriving DecidableEq, Repr

/-- What the host does at one step. DESIGN CHOICE (log 1). -/
inductive HostInput where
  /-- Nothing is presented. -/
  | quiet
  /-- A command is presented (R105). -/
  | command (c : Command)
  /-- The reset input `rst` is asserted (R142). -/
  | rst
deriving DecidableEq, Repr

/-- The architectural state of R23, `(mem, x, flags, pc, ir, run_state)`, and after it three fields of the model's own:
the inputs still to come and the outputs collected so far. -/
structure State where
  /-- The 16 cells (20_memory R30). -/
  mem : Memory
  /-- The general registers (R10). -/
  regs : RegFile
  /-- The status byte; bit 0 is `Z` (R14). -/
  flags : Byte
  /-- The address of the opcode byte of the next instruction to fetch (R16). -/
  pc : Byte
  /-- The last fetched opcode byte (R18). -/
  ir : Byte
  /-- The control state (R20). -/
  runState : RunState
  /-- MODEL's own, DESIGN CHOICE (log 1): what the host presents at the coming steps, one entry a step, oldest first; once it is
  empty the host presents nothing. -/
  hostIn : List HostInput
  /-- MODEL's own, DESIGN CHOICE (log 2): the diagnostic events the host has collected, in execution order (R22). No step reads it. -/
  events : List Event
  /-- MODEL's own, DESIGN CHOICE (log 3): the responses the host has collected, in order (R113). No step reads it. -/
  responses : List Response
deriving DecidableEq, Repr

/-- The reasons a step can stop the machine. The spec has none (R120: no condition is fatal). -/
inductive Fault where
  /-- Raised by `step` when a run is in progress and `pc` is 16 or more. 40_cycle R69 excludes that state and R68 defines
  no step there. Safe (log 5): no state a run reaches has it. -/
  | ranPastMemory
deriving DecidableEq, Repr

/-- The reasons a step has no meaning. -/
inductive Refusal where
  /-- Would be raised by an arm of `exec` that has no meaning yet. Safe. No arm of this model raises it. -/
  | notModelled (mnemonic : String)
deriving DecidableEq, Repr

/-- The state after power-on and after any reset (R23, R140, R141): everything zero and IDLE, memory with nothing
listed. The host has presented nothing and collected nothing (log 1, 2, 3). -/
def State.reset : State where
  mem := []
  regs := ⟨0, 0, 0, 0⟩
  flags := 0
  pc := 0
  ir := 0
  runState := .idle
  hostIn := []
  events := []
  responses := []

end Sys2Proof.Machine
end

