-- ==== Sys2Proof/Machine/Ops.lean ====
section
/-! DEFINITION. The named operations over memory, registers and control state that every meaning is written with. There
is no exception entry and no return from one: a diagnostic saves nothing and transfers control nowhere (60_exceptions
R125, R126). The shared operation in its place is `State.raise`, which reports a diagnostic (00_scope R8). -/

namespace Sys2Proof.Machine

/-! ### Memory and its arbiter (20_memory R30, R35) -/

/-- What an address below 16 that is not listed holds: the reset contents (10_state R23, 30_encoding R62). -/
def Memory.unlisted : Byte := 0x00

/-- The canonical form: addresses below 16 and strictly rising, no entry equal to `unlisted`. -/
abbrev Memory.wf (m : Memory) : Prop :=
  m.Pairwise (fun c d => c.1 < d.1) ∧ ∀ c ∈ m, c.1 < Config.memSize ∧ c.2 ≠ Memory.unlisted

/-- The content of cell `a` of the raw array. -/
def Memory.lookup (a : Nat) : Memory → Byte
  | [] => Memory.unlisted
  | c :: m => if c.1 = a then c.2 else Memory.lookup a m

/-- The raw store of `v` into cell `a`, keeping the canonical form (90_conflicts C7: a raw array behind the arbiter). -/
def Memory.insert (a : Nat) (v : Byte) : Memory → Memory
  | [] => if v = Memory.unlisted then [] else [(a, v)]
  | c :: m =>
    if a < c.1 then (if v = Memory.unlisted then c :: m else (a, v) :: c :: m)
    else if a = c.1 then (if v = Memory.unlisted then m else (a, v) :: m)
    else c :: Memory.insert a v m

/-- `MemRead(a, 1)` through the arbiter (R8, R35): no data when `a` is 16 or more. -/
def Memory.read (a : Nat) (m : Memory) : Option Byte :=
  if a < Config.memSize then some (Memory.lookup a m) else none

/-- `MemWrite(a, 1, v)` through the arbiter (R8, R35): nothing is stored when `a` is 16 or more. -/
def Memory.write (a : Nat) (v : Byte) (m : Memory) : Option Memory :=
  if a < Config.memSize then some (Memory.insert a v m) else none

/-- The store of `bytes` at `a`, `a + 1`, … of those bytes whose address exists. -/
def Memory.place (a : Nat) : List Byte → Memory → Memory
  | [], m => m
  | b :: bytes, m => Memory.place (a + 1) bytes ((Memory.write a b m).getD m)

/-- The bytes of memory at `a` to `a + n - 1`, those whose address exists, ascending. -/
def Memory.bytesFrom (a : Nat) : Nat → Memory → List Byte
  | 0, _ => []
  | n + 1, m =>
    match Memory.read a m with
    | some b => b :: Memory.bytesFrom (a + 1) n m
    | none => []

/-! ### Registers -/

/-- Read of general register `i` (10_state R10). -/
def RegFile.get (r : RegFile) : Fin 4 → Byte
  | 0 => r.x0
  | 1 => r.x1
  | 2 => r.x2
  | 3 => r.x3

/-- Write of general register `i` (R10): no register is hardwired. -/
def RegFile.set (r : RegFile) (i : Fin 4) (v : Byte) : RegFile :=
  match i with
  | 0 => { r with x0 := v }
  | 1 => { r with x1 := v }
  | 2 => { r with x2 := v }
  | 3 => { r with x3 := v }

/-- `x[i]`. -/
def State.reg (s : State) (i : Fin 4) : Byte := s.regs.get i

/-- `x[i] <- v`. -/
def State.setReg (s : State) (i : Fin 4) (v : Byte) : State := { s with regs := s.regs.set i v }

/-- `flags <- v`, the whole byte (R14). -/
def State.setFlags (s : State) (v : Byte) : State := { s with flags := v }

/-! ### Control state -/

/-- `pc <- target` (R16). -/
def State.setPc (s : State) (target : Byte) : State := { s with pc := target }

/-- `pc <- pc0 + n`. In a step `pc0` is at most 15 and `n` at most 3, so the 8 bits never wrap (R17). -/
def State.advance (s : State) (n : Nat) : State := s.setPc (s.pc + BitVec.ofNat 8 n)

/-- `ir <- v` (R18). -/
def State.setIr (s : State) (v : Byte) : State := { s with ir := v }

/-- `run_state <- r` (R20). -/
def State.setRunState (s : State) (r : RunState) : State := { s with runState := r }

/-- `mem <- m`. -/
def State.setMem (s : State) (m : Memory) : State := { s with mem := m }

/-! ### The host's side -/

/-- `raise d(info)`: one more event `(d, pc0, info)` on the diagnostic output (00_scope R8, 10_state R22). It changes nothing
else: not a trap, not the end of the instruction. -/
def State.raise (s : State) (d : Diagnostic) (info : Byte) : State :=
  { s with events := s.events ++ [⟨d, s.pc, info⟩] }

/-- One more response (45_host_commands R113). -/
def State.respond (s : State) (status : Status) (data : Option Byte) : State :=
  { s with responses := s.responses ++ [⟨status, data⟩] }

/-- What the host does at this step (log 1): the oldest entry of `hostIn`, or nothing. -/
def State.input (s : State) : HostInput := s.hostIn.headD .quiet

/-- The state with this step's host action consumed (log 1). -/
def State.dropInput (s : State) : State := { s with hostIn := s.hostIn.tail }

/-- The effect of reset (70_reset_and_hazards R140, R142): the whole architectural state becomes that of `State.reset`. It emits
no event and does not erase what the host has collected (10_state R22). -/
def State.toReset (s : State) : State :=
  { State.reset with hostIn := s.hostIn, events := s.events, responses := s.responses }

/-- The code of a diagnostic (R22, 92_eei_decisions D7). -/
def Diagnostic.code : Diagnostic → Nat
  | .invalidRegister => 1
  | .invalidAddress => 2
  | .unknownInstruction => 3

/-- The number of a status (R113). -/
def Status.code : Status → Nat
  | .ok => 0
  | .invalidRegister => 1
  | .invalidAddress => 2

/-! ### Operand fetch and its failure (40_cycle R71) -/

/-- All `len` bytes of the instruction at `pc` lie inside memory: not `pc0 + len - 1 > 15`. -/
def State.fits (s : State) (len : Nat) : Bool := decide (s.pc.toNat + len ≤ Config.memSize)

/-- The instruction is abandoned: InvalidAddress(16), `pc <- pc0 + len`, nothing else. -/
def State.abandon (s : State) (len : Nat) : State := (s.raise .invalidAddress 16).advance len

/-- The check R71 puts before anything else: `k` is the state the instruction leaves when its operand bytes are
there. -/
def State.ifFetched (s : State) (len : Nat) (k : State) : State := if s.fits len then k else s.abandon len

end Sys2Proof.Machine
end

