-- ==== Sys2Proof/Machine/Flags.lean ====
section
/-! DEFINITION. The one flag computation (10_state R14, R15). -/

namespace Sys2Proof.Machine

/-- The whole `flags` byte an ADD or SUB writes: 0x01 when the 8-bit result is 0, else 0x00 (43_add_sub R90, R91). -/
def flagsOf (result : Byte) : Byte := if result = 0 then 0x01 else 0x00

end Sys2Proof.Machine
end

