-- ==== Sys2Proof/Machine/Operands.lean ====
section
/-! DEFINITION. The operand forms of 30_encoding R57. A `value` operand is the byte itself and needs no definition. -/

namespace Sys2Proof.Machine

/-- A register index operand: it names `x[i]` when the whole byte `i` is 0 to 3, and is invalid otherwise; it is never
masked (R57 (b)). -/
def registerOperand (b : Byte) : Option (Fin 4) :=
  if h : b.toNat < Config.numRegs then some ⟨b.toNat, h⟩ else none

/-- The two index operands of ADD and SUB, operand 1 checked first; the first invalid byte otherwise (43_add_sub R94). -/
def registerOperands (b1 b2 : Byte) : Except Byte (Fin 4 × Fin 4) :=
  match registerOperand b1, registerOperand b2 with
  | some r1, some r2 => .ok (r1, r2)
  | none, _ => .error b1
  | some _, none => .error b2

/-- An address operand: a target when the whole byte is 0 to 15, invalid otherwise; never masked (R57 (c)). -/
def addressOperand (b : Byte) : Option Byte :=
  if b.toNat < Config.memSize then some b else none

end Sys2Proof.Machine
end

