-- ==== Sys2Proof/Machine/Arith.lean ====
section
/-! DEFINITION. ADD and SUB (43_add_sub R90 to R94). -/

namespace Sys2Proof.Machine

/-- The register file update of ADD and SUB (R90, R91, 10_state R12): both registers are read before any write, the flags
come from the result, and the write of zero to `r2` is the last, so it wins when `r1 = r2` (R93). -/
def State.combine (s : State) (f : Byte → Byte → Byte) (r1 r2 : Fin 4) : State :=
  let result := f (s.reg r1) (s.reg r2)
  ((s.setFlags (flagsOf result)).setReg r1 result).setReg r2 0x00

/-- The shape ADD and SUB share: operand fetch (R71), the two index checks (R94), the update, `pc + 3`. -/
def arithmetic (f : Byte → Byte → Byte) (reg1 reg2 : Byte) (s : State) : State :=
  s.ifFetched 3 <|
    match registerOperands reg1 reg2 with
    | .ok (r1, r2) => (s.combine f r1 r2).advance 3
    | .error bad => (s.raise .invalidRegister bad).advance 3

/-- ADD reg1, reg2 (R90): the sum modulo 256. -/
def execAdd (reg1 reg2 : Byte) (s : State) : Host.Outcome State Fault Refusal :=
  .next (arithmetic (fun a b => a + b) reg1 reg2 s)

/-- SUB reg1, reg2 (R91): the difference modulo 256. -/
def execSub (reg1 reg2 : Byte) (s : State) : Host.Outcome State Fault Refusal :=
  .next (arithmetic (fun a b => a - b) reg1 reg2 s)

end Sys2Proof.Machine
end

