-- ==== Sys2Proof/Machine/Jump.lean ====
section
/-! DEFINITION. JUMP (44_jump R100 to R102). -/

namespace Sys2Proof.Machine

/-- JUMP address (R100): an absolute target, no auto-advance; an invalid target leaves `pc` where it is, so the same JUMP
runs again (R102). -/
def execJump (address : Byte) (s : State) : Host.Outcome State Fault Refusal :=
  .next <| s.ifFetched 2 <|
    match addressOperand address with
    | some target => s.setPc target
    | none => s.raise .invalidAddress address

end Sys2Proof.Machine
end

