-- ==== Sys2Proof/Machine/Move.lean ====
section
/-! DEFINITION. NOOP and LOAD (41_noop_unknown R80, 42_load R85, R86). -/

namespace Sys2Proof.Machine

/-- NOOP (R80): `pc` advances by 1 and nothing else changes. -/
def execNoop (s : State) : Host.Outcome State Fault Refusal := .next (s.advance 1)

/-- LOAD reg, value (R85): no flag is written; `pc` advances by 3 whether or not the index is valid (90_conflicts C8). -/
def execLoad (reg value : Byte) (s : State) : Host.Outcome State Fault Refusal :=
  .next <| s.ifFetched 3 <|
    match registerOperand reg with
    | some r => (s.setReg r value).advance 3
    | none => (s.raise .invalidRegister reg).advance 3

end Sys2Proof.Machine
end

