-- ==== Sys2Proof/Machine/Unknown.lean ====
section
/-! DEFINITION. The unknown opcodes 0x05 to 0xFF (41_noop_unknown R81, 30_encoding R58), one meaning for each row of the
table over one shared operation. -/

namespace Sys2Proof.Machine

/-- UNKNOWN (R81): UnknownInstruction with the opcode byte itself, then `pc` advances by 1; no operand byte is read, no
flag or register written. The byte is the instruction's own opcode, which `ir` holds during Execute (R67; log 11). -/
def reportUnknown (op : Byte) (s : State) : State := (s.raise .unknownInstruction op).advance 1

/-- Opcode 0x05 (R81). -/
def execUnknown05 (s : State) : Host.Outcome State Fault Refusal := .next (reportUnknown 0x05 s)

/-- Opcode 0x06 and 0x07 (R81). -/
def execUnknown06 (op : Byte) (s : State) : Host.Outcome State Fault Refusal := .next (reportUnknown op s)

/-- Opcode 0x08 to 0x0F (R81). -/
def execUnknown08 (op : Byte) (s : State) : Host.Outcome State Fault Refusal := .next (reportUnknown op s)

/-- Opcode 0x10 to 0x1F (R81). -/
def execUnknown10 (op : Byte) (s : State) : Host.Outcome State Fault Refusal := .next (reportUnknown op s)

/-- Opcode 0x20 to 0x3F (R81). -/
def execUnknown20 (op : Byte) (s : State) : Host.Outcome State Fault Refusal := .next (reportUnknown op s)

/-- Opcode 0x40 to 0x7F (R81). -/
def execUnknown40 (op : Byte) (s : State) : Host.Outcome State Fault Refusal := .next (reportUnknown op s)

/-- Opcode 0x80 to 0xFF (R81). -/
def execUnknown80 (op : Byte) (s : State) : Host.Outcome State Fault Refusal := .next (reportUnknown op s)

end Sys2Proof.Machine
end

