-- ==== Sys2Proof/Machine/Dispatch.lean ====
section
/-! DEFINITION. The dispatch: one arm per constructor of `Instr` (40_cycle R67). -/

namespace Sys2Proof.Machine

/-- The instruction's own effect in Execute (R67). `ir`, memory and `run_state` are not its business. -/
def exec (i : Instr) (s : State) : Host.Outcome State Fault Refusal :=
  match i with
  | .noop => Sys2Proof.Machine.execNoop s
  | .load reg value => Sys2Proof.Machine.execLoad reg value s
  | .add reg1 reg2 => Sys2Proof.Machine.execAdd reg1 reg2 s
  | .sub reg1 reg2 => Sys2Proof.Machine.execSub reg1 reg2 s
  | .jump address => Sys2Proof.Machine.execJump address s
  | .unknown05 => Sys2Proof.Machine.execUnknown05 s
  | .unknown06 op => Sys2Proof.Machine.execUnknown06 op s
  | .unknown08 op => Sys2Proof.Machine.execUnknown08 op s
  | .unknown10 op => Sys2Proof.Machine.execUnknown10 op s
  | .unknown20 op => Sys2Proof.Machine.execUnknown20 op s
  | .unknown40 op => Sys2Proof.Machine.execUnknown40 op s
  | .unknown80 op => Sys2Proof.Machine.execUnknown80 op s

end Sys2Proof.Machine
end

