-- ==== Sys2Proof/Machine/HostCommands.lean ====
section
/-! DEFINITION. The host's commands, one definition each (45_host_commands R106 to R110), and the observation outputs
(R111). They are performed only while the block is idle; `cycle` sees to that (R105). -/

namespace Sys2Proof.Machine

/-- Command `reset` (R106): the reset of R140, status OK, no data. -/
def performReset (s : State) : State := s.toReset.respond .ok none

/-- Command `readMemory(addr)` (R107): the cell, or InvalidAddress with data 0x00 (D13). -/
def performReadMemory (addr : Byte) (s : State) : State :=
  match Memory.read addr.toNat s.mem with
  | some v => s.respond .ok (some v)
  | none => s.respond .invalidAddress (some 0x00)

/-- Command `writeMemory(addr, value)` (R108): the write, or InvalidAddress and nothing written. -/
def performWriteMemory (addr value : Byte) (s : State) : State :=
  match Memory.write addr.toNat value s.mem with
  | some m => (s.setMem m).respond .ok none
  | none => s.respond .invalidAddress none

/-- Command `readRegister(idx)` (R109): the register, or InvalidRegister with data 0x00 (D13). -/
def performReadRegister (idx : Byte) (s : State) : State :=
  if h : idx.toNat < Config.numRegs then s.respond .ok (some (s.reg ⟨idx.toNat, h⟩))
  else s.respond .invalidRegister (some 0x00)

/-- Command `run` (R110): to FETCH if `pc` is below 16, else nothing; no response, and nothing is cleared. -/
def performRun (s : State) : State :=
  if s.pc.toNat < Config.memSize then s.setRunState .fetch else s

/-- The effect of an accepted command, with its response (R105, R113). -/
def perform (c : Command) (s : State) : State :=
  match c with
  | .reset => performReset s
  | .readMemory addr => performReadMemory addr s
  | .writeMemory addr value => performWriteMemory addr value s
  | .readRegister idx => performReadRegister idx s
  | .run => performRun s

/-- The output `running` (10_state R20). -/
def State.running (s : State) : Bool := decide (s.runState ≠ .idle)

/-- The observation outputs `(pc, ir, flags)` (R111): the registers while `running` is 0, not represented while it is 1
(93_implementation_defined U11; log 14). -/
def State.observe (s : State) : Option (Byte × Byte × Byte) :=
  if s.running then none else some (s.pc, s.ir, s.flags)

end Sys2Proof.Machine
end

