-- ==== Sys2Proof/Machine/Cycle.lean ====
section
/-! DEFINITION. Fetch, Execute, the run loop and the host's moves (40_cycle R65 to R71, 45_host_commands R105). -/

namespace Sys2Proof.Machine

/-- Fetch (R66): `ir <- mem[pc]` and EXECUTE; nothing else changes. No state is given when `pc` is 16 or more, which R36
excludes. -/
def fetchOpcode (s : State) : Option State :=
  (Memory.read s.pc.toNat s.mem).map fun op => (s.setIr op).setRunState .execute

/-- The operand bytes that lie inside memory, of the instruction whose opcode is in `ir`: none, the byte at `pc + 1`, or
those at `pc + 1` and `pc + 2`, the addresses computed without wrap (20_memory R33). -/
def operandBytes (s : State) : List Byte :=
  Memory.bytesFrom (s.pc.toNat + 1) (opcodeLength s.ir - 1) s.mem

/-- The last line of Execute (R67, R69): the run goes on while `pc` is below 16. -/
def continueRun (s : State) : State :=
  s.setRunState (if s.pc.toNat < Config.memSize then .fetch else .idle)

/-- `continueRun` after an instruction that left a next state. -/
def settle : Host.Outcome State Fault Refusal → Host.Outcome State Fault Refusal
  | .next s => .next (continueRun s)
  | .fault f => .fault f
  | .refused r => .refused r

/-- Execute (R67), keyed on `ir`: the instruction's effect, or its abandonment when an operand byte lies outside memory
(R71), then the run loop's test. Its precondition is `pc` at most 15 (R67; log 5). -/
def executeOpcode (s : State) : Host.Outcome State Fault Refusal :=
  if s.pc.toNat < Config.memSize then
    match decodeFrom s.ir (operandBytes s) with
    | .ok (i, _) => settle (exec i s)
    | .error t => settle (.next (s.abandon t.length))
  else .fault .ranPastMemory

/-- One step of a run (R68): Fetch, then Execute, with nothing between them. -/
def runOne (s : State) : Host.Outcome State Fault Refusal :=
  match fetchOpcode s with
  | some t => executeOpcode t
  | none => .fault .ranPastMemory

/-- The host's move while the block is idle (R65, R105): an accepted command is performed; with nothing presented all
state is held (60_exceptions R135). -/
def idleOne (input : HostInput) (s : State) : State :=
  match input with
  | .command c => perform c s
  | .quiet => s
  | .rst => s.toReset

/-- One step of the block. `rst` has priority over everything (70_reset_and_hazards R142). Otherwise the host acts while the
block is idle, and the state machine acts while a run is in progress; a command presented then is dropped and not
remembered (R105). -/
def cycle (s : State) : Host.Outcome State Fault Refusal :=
  match s.input with
  | .rst => .next s.dropInput.toReset
  | input =>
    match s.runState with
    | .idle => .next (idleOne input s.dropInput)
    | .fetch => runOne s.dropInput
    | .execute => executeOpcode s.dropInput

/-- The host's coming actions with no `rst` at the very next step: one is put off by a step. -/
def quieted : List HostInput → List HostInput
  | .rst :: l => .quiet :: .rst :: l
  | l => l

/-- The address the next Fetch reads, once a run is in progress: `pc`, or 0 when `pc` has left memory and only a reset could
bring it back (70_reset_and_hazards R146). -/
def fetchAddress (s : State) : Byte := if s.pc.toNat < Config.memSize then s.pc else 0

/-- The bytes placed where the next Fetch reads, a run in progress, and no `rst` at the next step: what the host's
`writeMemory` commands and `run` bring about (R145; log 7). -/
def placeProgram (bytes : List Byte) (s : State) : State :=
  { s with
    mem := Memory.place (fetchAddress s).toNat bytes s.mem
    pc := fetchAddress s
    runState := .fetch
    hostIn := quieted s.hostIn }

end Sys2Proof.Machine
end

