-- ==== Sys2Proof/Machine/Step.lean ====
section
/-! DEFINITION. The step of the machine, and the placing of one instruction where it fetches next. -/

namespace Sys2Proof.Machine

/-- One step: a host move while idle, one Fetch and Execute while a run is in progress (40_cycle R65, R68). -/
def step (s : State) : Host.Outcome State Fault Refusal := cycle s

/-- The state with the instruction of bits `w` where `step` fetches next, so that the very next step runs it (log 7). -/
def State.withFetchWord (s : State) (nbits w : Nat) : State := placeProgram (tableBytes nbits w) s

end Sys2Proof.Machine
end

