-- ==== Sys2Proof/Safety.lean ====
section
/-! DEFINITION. What claims are stated in terms of: the invariant of the block, a run with no fault recorded, and the next
`pc` as a function of `pc` and memory. -/

namespace Sys2Proof.Machine

/-- The legal values of the state (10_state R14, R17, R19, R20; 40_cycle R69): memory in canonical form, `flags` 0x00 or 0x01,
`pc` at most 18, a run in progress only while `pc` is below 16, in EXECUTE the opcode at `pc` in `ir`, and every event
reported by an instruction at 0 to 15 (R22). -/
structure State.Inv (s : State) : Prop where
  mem : Memory.wf s.mem
  flags : s.flags = 0x00 ∨ s.flags = 0x01
  pc : s.pc.toNat ≤ 18
  running : s.runState ≠ .idle → s.pc.toNat < 16
  opcode : s.runState = .execute → Memory.read s.pc.toNat s.mem = some s.ir
  origins : ∀ e ∈ s.events, e.origin.toNat < 16

/-- No event of a behaviour that the source calls undefined has been reported (93_implementation_defined U1, U2; log 9): no
InvalidRegister and no InvalidAddress. UnknownInstruction is a plain event (U6). -/
def State.noFaultRecorded (s : State) : Bool :=
  s.events.all fun e => decide (e.diag = .unknownInstruction)

/-- The next `pc` of a step as 40_cycle R72 gives it from `pc` and memory alone (`pc` below 16; addresses as numbers). -/
def nextPc (pc : Nat) (m : Memory) : Nat :=
  let op := (Memory.lookup pc m).toNat
  if op = 0x00 ∨ 0x05 ≤ op then pc + 1
  else if op < 0x04 then pc + 3
  else if pc = 15 then pc + 2
  else if (Memory.lookup (pc + 1) m).toNat < 16 then (Memory.lookup (pc + 1) m).toNat
  else pc

end Sys2Proof.Machine
end

