-- ==== Sys2Proof/Certificates/Slice0/Obligations.lean ====
section
/-! DEFINITION. The statements for the provers, from the numbered rules of spec/. An instruction's statement is about
`exec`, which is the instruction's own effect; `StepRunsTheDecodedInstruction` carries it to `step`. Where a clause
rests on one of the spec's own decisions (92_eei_decisions D1 to D24) or on a rule the spec marks [derived], the
docstring says so and the statement's basis is 'derived'. The fields `hostIn`, `events` and `responses` are the model's own
record of inputs and outputs (log 1, 2, 3): where a statement about `step` says that `hostIn` becomes its tail, that is
log 1's, and where it says what is appended to the other two, the rule says what is emitted. -/

open Sys2Proof Sys2Proof.Machine

/-! ### Encoding (30_encoding) -/

/-- Decoding the bytes of a well-formed instruction gives it back, whatever follows (R50 to R55). -/
def Obligations.DecodeOfEncodeIsTheInstruction : Prop :=
  ∀ (i : Instr) (rest : List Byte), i.wellFormed = true → decode (encode i ++ rest) = .ok (i, rest)

/-- Whatever the decoder accepts is well formed, and its encoding is exactly the bytes it consumed: no bit of an encoding
is dropped (R53, R54: all 8 bits of each byte are significant). -/
def Obligations.DecodedBytesEncodeBack : Prop :=
  ∀ (bytes rest : List Byte) (i : Instr), decode bytes = .ok (i, rest) →
    i.wellFormed = true ∧ encode i ++ rest = bytes

/-- The opcode byte alone decides the length and every opcode byte is an instruction (30_encoding R51, R58). That missing operand
bytes, and nothing else, are rejected as truncated with that length is no rule of the spec: it is the model's choice of
form, DESIGN CHOICE (log 13). -/
def Obligations.OpcodeAloneDecidesLength : Prop :=
  ∀ (op : Byte) (operands : List Byte),
    let length := if op.toNat = 0x04 then 2 else if 0x01 ≤ op.toNat ∧ op.toNat ≤ 0x03 then 3 else 1
    if length ≤ operands.length + 1 then
      ∃ i : Instr, decode (op :: operands) = .ok (i, operands.drop (length - 1)) ∧ i.opcode = op
    else decode (op :: operands) = .error (.truncated ⟨length⟩)

/-- Some words written out from R55's table, one or more a family. The last clause, the rejection of the truncated word
0x01 0x02, is not from that table: it is the model's choice of form, DESIGN CHOICE (log 13). -/
def Obligations.WordsOfTheOpcodeMapDecode : Prop :=
  decode [0x00] = .ok (.noop, []) ∧
  decode [0x01, 0x02, 0xFF] = .ok (.load 2 255, []) ∧
  decode [0x02, 0x00, 0x01] = .ok (.add 0 1, []) ∧
  decode [0x03, 0x01, 0x00] = .ok (.sub 1 0, []) ∧
  decode [0x04, 0x0F] = .ok (.jump 15, []) ∧
  decode [0x81, 0x00, 0x05] = .ok (.unknown80 0x81, [0x00, 0x05]) ∧
  decode [0x10] = .ok (.unknown10 0x10, []) ∧
  decode [0x01, 0x02] = .error (.truncated ⟨3⟩)

/-! ### Memory and its arbiter (20_memory) -/

/-- A byte written at a valid address is read back, every other address reads as before, and the canonical form is
kept (R30). -/
def Obligations.WriteThenReadReturnsTheByte : Prop :=
  ∀ (m : Memory) (a : Nat) (v : Byte), Memory.wf m → a < 16 →
    ∃ m', Memory.write a v m = some m' ∧ Memory.wf m' ∧ Memory.read a m' = some v ∧
      ∀ b, b ≠ a → Memory.read b m' = Memory.read b m

/-- The arbiter's bounds check (R35): an access at 0 to 15 is performed; one at 16 or more returns no data and stores
nothing. -/
def Obligations.ArbiterChecksEveryAddress : Prop :=
  ∀ (m : Memory) (a : Nat) (v : Byte),
    (a < 16 → (∃ b, Memory.read a m = some b) ∧
      ∃ m', Memory.write a v m = some m' ∧ (Memory.wf m → Memory.read a m' = some v)) ∧
    (16 ≤ a → Memory.read a m = none ∧ Memory.write a v m = none)

/-! ### Fetch, Execute, step (40_cycle) -/

/-- Fetch loads `ir` from `mem[pc]`, moves to EXECUTE, and changes nothing else (R66). -/
def Obligations.FetchLoadsOnlyTheInstructionRegister : Prop :=
  ∀ s : State, s.runState = .fetch → s.pc.toNat < 16 →
    ∃ op, Memory.read s.pc.toNat s.mem = some op ∧
      fetchOpcode s = some { s with ir := op, runState := .execute }

/-- Execute (R67): each value of `ir` performs its instruction, with the operand bytes at `pc + 1` and `pc + 2` where they
lie in memory; afterwards the run goes on exactly when `pc` is below 16. `ir` and memory do not change and at most one event is
reported. -/
def Obligations.ExecutePerformsTheInstructionOfIr : Prop :=
  ∀ (s : State) (b1 b2 : Byte), s.runState = .execute → s.pc.toNat < 16 →
    Memory.read s.pc.toNat s.mem = some s.ir →
    (∀ v, Memory.read (s.pc.toNat + 1) s.mem = some v → b1 = v) →
    (∀ v, Memory.read (s.pc.toNat + 2) s.mem = some v → b2 = v) →
    ∃ (i : Instr) (t : State),
      (i = if s.ir = 0x00 then Instr.noop
        else if s.ir = 0x01 then Instr.load b1 b2
        else if s.ir = 0x02 then Instr.add b1 b2
        else if s.ir = 0x03 then Instr.sub b1 b2
        else if s.ir = 0x04 then Instr.jump b1
        else i) ∧
      (0x05 ≤ s.ir.toNat → i.opcode = s.ir ∧ i.wellFormed = true) ∧
      exec i s = .next t ∧
      executeOpcode s = .next { t with runState := if t.pc.toNat < 16 then .fetch else .idle } ∧
      t.ir = s.ir ∧ t.mem = s.mem ∧
      (t.events = s.events ∨ ∃ e, t.events = s.events ++ [e])

/-- The step at a state whose bytes at `pc` decode to `i` is the effect of `i` after Fetch, followed by the run loop's
test (R67, R68). What the step adds: this step's host input is consumed, `ir` holds the opcode, `run_state` goes on. -/
def Obligations.StepRunsTheDecodedInstruction : Prop :=
  ∀ (s : State) (i : Instr) (rest : List Byte), s.runState = .fetch → s.pc.toNat < 16 → s.input ≠ .rst →
    decode (Memory.bytesFrom s.pc.toNat 3 s.mem) = .ok (i, rest) →
    ∃ t, exec i { s with ir := i.opcode, runState := .execute, hostIn := s.hostIn.tail } = .next t ∧
      step s = .next { t with runState := if t.pc.toNat < 16 then .fetch else .idle }

/-- An instruction whose operand bytes lie outside memory is abandoned by the step and ends the run. The spec's own
decision D2 (40_cycle section 6: "the spec's own"); the event's form is decision D7. -/
def Obligations.TruncatedInstructionEndsTheRun : Prop :=
  ∀ (s : State) (op : Byte), s.runState = .fetch → s.pc.toNat < 16 → s.input ≠ .rst →
    Memory.read s.pc.toNat s.mem = some op →
    (((op = 0x01 ∨ op = 0x02 ∨ op = 0x03) ∧ 14 ≤ s.pc.toNat →
      step s = .next { s with
        ir := op, pc := s.pc + 3, runState := .idle, hostIn := s.hostIn.tail
        events := s.events ++ [⟨.invalidAddress, s.pc, 16⟩] }) ∧
    (op = 0x04 ∧ s.pc.toNat = 15 →
      step s = .next { s with
        ir := op, pc := 17, runState := .idle, hostIn := s.hostIn.tail
        events := s.events ++ [⟨.invalidAddress, s.pc, 16⟩] }))

/-! ### The instructions (41 to 44) -/

/-- NOOP (R80), as an effect and as a Fetch and an Execute: `pc` advances by 1, at 15 the run ends, nothing else changes but what Fetch
does to `ir`. -/
def Obligations.NoopOnlyAdvances : Prop :=
  ∀ s : State, s.pc.toNat < 16 →
    exec .noop s = .next { s with pc := s.pc + 1 } ∧
    (s.runState = .fetch → Memory.read s.pc.toNat s.mem = some 0x00 →
      ∃ u, fetchOpcode s = some u ∧
        executeOpcode u = .next { s with
          ir := 0x00, pc := s.pc + 1, runState := if s.pc.toNat = 15 then .idle else .fetch })

/-- LOAD with a valid index and its operand bytes in memory: register `r` takes `value`, the others keep theirs, `flags` and
all else but `pc` are unchanged (42_load). -/
def Obligations.LoadWritesOneRegister : Prop :=
  ∀ (s : State) (reg value : Byte) (r : Fin 4), s.pc.toNat ≤ 13 → reg.toNat = r.val →
    ∃ t, exec (.load reg value) s = .next t ∧
      t = { s with regs := t.regs, pc := s.pc + 3 } ∧
      t.regs.get r = value ∧ ∀ q, q ≠ r → t.regs.get q = s.regs.get q

/-- LOAD with an index of 4 or more reports InvalidRegister and writes nothing; `pc` advances all the same (42_load;
90_conflicts C8; the event's form is decision D7). -/
def Obligations.LoadRefusesInvalidIndex : Prop :=
  ∀ (s : State) (reg value : Byte), s.pc.toNat ≤ 13 → 4 ≤ reg.toNat →
    exec (.load reg value) s = .next { s with
      pc := s.pc + 3, events := s.events ++ [⟨.invalidRegister, s.pc, reg⟩] }

/-- ADD of two different registers: the sum modulo 256 into the first, zero into the second, `flags` from the result
(43_add_sub). -/
def Obligations.AddOfTwoRegisters : Prop :=
  ∀ (s : State) (reg1 reg2 : Byte) (r1 r2 : Fin 4), s.pc.toNat ≤ 13 →
    reg1.toNat = r1.val → reg2.toNat = r2.val → r1 ≠ r2 →
    ∃ t, exec (.add reg1 reg2) s = .next t ∧
      t = { s with regs := t.regs, flags := t.flags, pc := s.pc + 3 } ∧
      (t.regs.get r1).toNat = ((s.regs.get r1).toNat + (s.regs.get r2).toNat) % 256 ∧
      t.regs.get r2 = 0x00 ∧
      (∀ q, q ≠ r1 → q ≠ r2 → t.regs.get q = s.regs.get q) ∧
      t.flags = if ((s.regs.get r1).toNat + (s.regs.get r2).toNat) % 256 = 0 then 0x01 else 0x00

/-- SUB of two different registers: the difference modulo 256 into the first, zero into the second, `flags` 0x01 exactly
when the two were equal (43_add_sub). -/
def Obligations.SubOfTwoRegisters : Prop :=
  ∀ (s : State) (reg1 reg2 : Byte) (r1 r2 : Fin 4), s.pc.toNat ≤ 13 →
    reg1.toNat = r1.val → reg2.toNat = r2.val → r1 ≠ r2 →
    ∃ t, exec (.sub reg1 reg2) s = .next t ∧
      t = { s with regs := t.regs, flags := t.flags, pc := s.pc + 3 } ∧
      (t.regs.get r1).toNat =
        (if (s.regs.get r2).toNat ≤ (s.regs.get r1).toNat
          then (s.regs.get r1).toNat - (s.regs.get r2).toNat
          else (s.regs.get r1).toNat + 256 - (s.regs.get r2).toNat) ∧
      t.regs.get r2 = 0x00 ∧
      (∀ q, q ≠ r1 → q ≠ r2 → t.regs.get q = s.regs.get q) ∧
      t.flags = if s.regs.get r1 = s.regs.get r2 then 0x01 else 0x00

/-- ADD and SUB naming one register twice: the write of zero wins, `flags` still comes from the result. The spec's own
decision D4 (43_add_sub: "the write of 0x00 wins"). -/
def Obligations.SameRegisterEndsZero : Prop :=
  ∀ (s : State) (reg : Byte) (r : Fin 4), s.pc.toNat ≤ 13 → reg.toNat = r.val →
    (∃ t, exec (.add reg reg) s = .next t ∧
      t = { s with regs := t.regs, flags := t.flags, pc := s.pc + 3 } ∧
      t.regs.get r = 0x00 ∧ (∀ q, q ≠ r → t.regs.get q = s.regs.get q) ∧
      t.flags = if (2 * (s.regs.get r).toNat) % 256 = 0 then 0x01 else 0x00) ∧
    (∃ t, exec (.sub reg reg) s = .next t ∧
      t = { s with regs := t.regs, flags := 0x01, pc := s.pc + 3 } ∧
      t.regs.get r = 0x00 ∧ ∀ q, q ≠ r → t.regs.get q = s.regs.get q)

/-- ADD and SUB with an index of 4 or more: the first invalid index is reported, nothing is written, `pc` advances by 3. The
spec's own decision D3; the event's form is decision D7. -/
def Obligations.ArithmeticRefusesInvalidIndex : Prop :=
  ∀ (s : State) (reg1 reg2 bad : Byte), s.pc.toNat ≤ 13 →
    ((4 ≤ reg1.toNat ∧ bad = reg1) ∨ (reg1.toNat < 4 ∧ 4 ≤ reg2.toNat ∧ bad = reg2)) →
    exec (.add reg1 reg2) s = .next { s with
      pc := s.pc + 3, events := s.events ++ [⟨.invalidRegister, s.pc, bad⟩] } ∧
    exec (.sub reg1 reg2) s = .next { s with
      pc := s.pc + 3, events := s.events ++ [⟨.invalidRegister, s.pc, bad⟩] }

/-- With an operand byte outside memory, LOAD, ADD, SUB and JUMP are abandoned whatever their operands: InvalidAddress(16),
nothing written, `pc` past the instruction. The spec's own decision D2; the event's form is decision D7. -/
def Obligations.OperandsOutsideMemoryAbandon : Prop :=
  ∀ (s : State) (b1 b2 : Byte),
    (s.pc.toNat = 14 ∨ s.pc.toNat = 15 →
      ∀ i ∈ [Instr.load b1 b2, Instr.add b1 b2, Instr.sub b1 b2],
        exec i s = .next { s with pc := s.pc + 3, events := s.events ++ [⟨.invalidAddress, s.pc, 16⟩] }) ∧
    (s.pc.toNat = 15 →
      exec (.jump b1) s = .next { s with pc := 17, events := s.events ++ [⟨.invalidAddress, s.pc, 16⟩] })

/-- JUMP to an address of 0 to 15: `pc` takes it, nothing else changes (44_jump). -/
def Obligations.JumpTakesValidTarget : Prop :=
  ∀ (s : State) (address : Byte), s.pc.toNat ≤ 14 → address.toNat < 16 →
    exec (.jump address) s = .next { s with pc := address }

/-- JUMP to an address of 16 or more: InvalidAddress with the target, `pc` and all else unchanged (44_jump; the event's
form is decision D7). -/
def Obligations.JumpRefusesInvalidTarget : Prop :=
  ∀ (s : State) (address : Byte), s.pc.toNat ≤ 14 → 16 ≤ address.toNat →
    exec (.jump address) s = .next { s with events := s.events ++ [⟨.invalidAddress, s.pc, address⟩] }

/-- Every row of the unknown opcodes: UnknownInstruction with the opcode byte, `pc` advances by 1, nothing else changes
(41_noop_unknown; the event's form is decision D7; log 11). -/
def Obligations.UnknownOpcodeIsReportedAndSkipped : Prop :=
  ∀ (s : State) (op : Byte), s.pc.toNat < 16 →
    ∀ i ∈ [Instr.unknown05, .unknown06 op, .unknown08 op, .unknown10 op, .unknown20 op, .unknown40 op,
        .unknown80 op],
      i.wellFormed = true →
      exec i s = .next { s with
        pc := s.pc + 1, events := s.events ++ [⟨.unknownInstruction, s.pc, i.opcode⟩] }

/-! ### Frames -/

/-- NOOP, JUMP and every unknown opcode touch no register and no flag, nor anything else but `pc` and the diagnostic output
(10_state R11, R15). -/
def Obligations.NoRegisterFormsFrame : Prop :=
  ∀ (s t : State) (op address : Byte),
    ∀ i ∈ [Instr.noop, .jump address, .unknown05, .unknown06 op, .unknown08 op, .unknown10 op, .unknown20 op,
        .unknown40 op, .unknown80 op],
      exec i s = .next t →
      (∀ q, t.regs.get q = s.regs.get q) ∧ t.flags = s.flags ∧ t.ir = s.ir ∧ t.runState = s.runState ∧
      (∀ a, Memory.read a t.mem = Memory.read a s.mem) ∧ t.hostIn = s.hostIn ∧ t.responses = s.responses

/-- LOAD leaves every register but the one its operand names, `flags`, and everything else but `pc` and the diagnostic
output (10_state R11, R15). -/
def Obligations.LoadFrame : Prop :=
  ∀ (s t : State) (reg value : Byte), exec (.load reg value) s = .next t →
    (∀ q : Fin 4, q.val ≠ reg.toNat → t.regs.get q = s.regs.get q) ∧ t.flags = s.flags ∧ t.ir = s.ir ∧
    t.runState = s.runState ∧ (∀ a, Memory.read a t.mem = Memory.read a s.mem) ∧ t.hostIn = s.hostIn ∧
    t.responses = s.responses

/-- ADD and SUB leave every register but the two their operands name, and everything else but `flags`, `pc` and the
diagnostic output; what they leave in `flags` is 0x00, 0x01 or its old value, and the old value when either index is
invalid (10_state R11, R14, R15). -/
def Obligations.ArithmeticFrame : Prop :=
  ∀ (s t : State) (reg1 reg2 : Byte), ∀ i ∈ [Instr.add reg1 reg2, .sub reg1 reg2], exec i s = .next t →
    (∀ q : Fin 4, q.val ≠ reg1.toNat → q.val ≠ reg2.toNat → t.regs.get q = s.regs.get q) ∧
    (t.flags = 0x00 ∨ t.flags = 0x01 ∨ t.flags = s.flags) ∧
    (4 ≤ reg1.toNat ∨ 4 ≤ reg2.toNat → t.flags = s.flags ∧ ∀ q, t.regs.get q = s.regs.get q) ∧
    t.ir = s.ir ∧ t.runState = s.runState ∧ (∀ a, Memory.read a t.mem = Memory.read a s.mem) ∧
    t.hostIn = s.hostIn ∧ t.responses = s.responses

/-- No instruction reads `flags` (10_state R15): from two states that differ in `flags` only, every instruction leaves states
that differ in `flags` only, and these are then both as they were, or equal. -/
def Obligations.NoInstructionReadsFlags : Prop :=
  ∀ (i : Instr) (s t : State) (f : Byte), exec i s = .next t →
    exec i { s with flags := f } = .next t ∨
    (exec i { s with flags := f } = .next { t with flags := f } ∧ t.flags = s.flags)

/-! ### Whole-machine rules -/

/-- What a step of a run (one Fetch and one Execute, `runOne`) can change (40_cycle section 7, R75, a rule the spec marks
[derived: from rules R66, R67 and 20_memory.md rule R34]): `ir` always becomes `mem[pc]`; `pc`, the registers, `flags` and `run_state` may
change, one event may be added; memory never changes. A diagnostic changes no state: the step does not depend on the events
reported before it. That an event names `pc` as its origin rests on decision D7 (10_state R22: the `at` and `info` fields are
the spec's own). -/
def Obligations.StepChangesOnlyWhatItMay : Prop :=
  ∀ s : State, s.runState = .fetch → s.pc.toNat < 16 →
    ∃ (t : State) (new : List Event), runOne s = .next t ∧
      Memory.read s.pc.toNat s.mem = some t.ir ∧
      t = { s with
        ir := t.ir, pc := t.pc, regs := t.regs, flags := t.flags, runState := t.runState
        events := s.events ++ new } ∧
      new.length ≤ 1 ∧ (∀ e ∈ new, e.origin = s.pc) ∧
      ∀ before : List Event, runOne { s with events := before } = .next { t with events := before ++ new }

/-- The transitions of `run_state` (40_cycle section 5): `run` starts a run exactly when `pc` is below 16, Fetch leads to
EXECUTE, Execute back to FETCH or, when it leaves `pc` at 16 or more, to IDLE, and `rst` to IDLE from anywhere. `rst` is
decision D11. -/
def Obligations.RunStateTransitions : Prop :=
  ∀ s : State,
    (s.input = .rst → ∃ t, step s = .next t ∧ t.runState = .idle) ∧
    (s.input = .command .run → s.runState = .idle →
      step s = .next { s with
        hostIn := s.hostIn.tail, runState := if s.pc.toNat < 16 then .fetch else .idle }) ∧
    (s.runState = .fetch → s.pc.toNat < 16 → ∃ t, fetchOpcode s = some t ∧ t.runState = .execute) ∧
    (s.input ≠ .rst → s.runState ≠ .idle → s.pc.toNat < 16 →
      ∃ t, step s = .next t ∧ t.runState = if t.pc.toNat < 16 then .fetch else .idle)

/-- A run ends exactly when a step leaves `pc` at 16, 17 or 18 (40_cycle section 5). -/
def Obligations.RunEndsExactlyPastMemory : Prop :=
  ∀ s t : State, s.runState ≠ .idle → s.pc.toNat < 16 → s.input ≠ .rst → step s = .next t →
    (t.runState = .idle ↔ t.pc.toNat = 16 ∨ t.pc.toNat = 17 ∨ t.pc.toNat = 18) ∧
    (t.runState ≠ .idle ↔ t.pc.toNat < 16)

/-- The next `pc` depends on `pc` and memory alone, by the formula of 40_cycle section 7 (a rule the spec marks
[derived]): registers, `flags` and `ir` have no part in it. -/
def Obligations.NextPcFromPcAndMemoryAlone : Prop :=
  ∀ s : State, s.runState = .fetch → s.pc.toNat < 16 → s.input ≠ .rst →
    ∃ t, step s = .next t ∧ t.pc.toNat = nextPc s.pc.toNat s.mem

/-- A run ends within 16 steps or never (40_cycle section 7, a rule the spec marks [derived]), with the host silent. -/
def Obligations.RunEndsWithinSixteenStepsOrNever : Prop :=
  ∀ s : State, s.runState = .fetch → s.pc.toNat < 16 → s.hostIn = [] →
    (∃ (k : Nat) (t : State), k ≤ 16 ∧ Host.Core.run Sys2Proof.core k s = .next t ∧ t.runState = .idle) ∨
    (∀ n : Nat, ∃ t : State, Host.Core.run Sys2Proof.core n s = .next t ∧ t.runState = .fetch)

/-- Memory is constant during a run (20_memory section 5, a rule the spec marks [derived]), from any state with a run in
progress and without `rst`. -/
def Obligations.MemoryConstantDuringRun : Prop :=
  ∀ s t : State, s.runState ≠ .idle → s.input ≠ .rst → step s = .next t → t.mem = s.mem

/-- JUMP with an invalid target is a livelock (44_jump section on invalid targets, a rule the spec marks [derived]): every step
reports the same event and changes nothing else. The event's form is decision D7. -/
def Obligations.InvalidJumpRepeatsForEver : Prop :=
  ∀ (s : State) (address : Byte) (n : Nat), s.runState = .fetch → s.hostIn = [] → s.pc.toNat ≤ 14 →
    Memory.read s.pc.toNat s.mem = some 0x04 → Memory.read (s.pc.toNat + 1) s.mem = some address →
    16 ≤ address.toNat →
    Host.Core.run Sys2Proof.core (n + 1) s = .next { s with
      ir := 0x04, events := s.events ++ List.replicate (n + 1) ⟨.invalidAddress, s.pc, address⟩ }

/-- Cleared memory is NOOPs that carry `pc` to 16 (30_encoding R62, 70_reset_and_hazards section 1): from address `16 - k` the
run ends after exactly `k` steps and leaves registers, `flags` and memory as they were. -/
def Obligations.ClearedMemoryCarriesPcToSixteen : Prop :=
  ∀ (s : State) (k : Nat), s.runState = .fetch → s.hostIn = [] → s.mem = [] → 0 < k → k ≤ 16 →
    s.pc.toNat = 16 - k →
    (∀ j, j < k → ∃ t : State, Host.Core.run Sys2Proof.core j s = .next t ∧ t.runState = .fetch) ∧
    Host.Core.run Sys2Proof.core k s = .next { s with ir := 0x00, pc := 16, runState := .idle }

/-- Every step keeps the invariant `State.Inv`: memory in canonical form, `flags` 0x00 or 0x01, `pc` at most 18 and below 16 while a
run is in progress, events reported from 0 to 15 (R14, R17, R19, R22). -/
def Obligations.EveryStepKeepsTheInvariant : Prop :=
  ∀ s t : State, s.Inv → step s = .next t → t.Inv

/-- The state after reset meets the invariant. -/
def Obligations.ResetMeetsTheInvariant : Prop := State.reset.Inv

/-- From a state that meets the invariant every step answers a next state: no condition is fatal (60_exceptions R120), and
a step fails only with a run in progress past the end of memory, which 40_cycle R69 excludes (log 5). -/
def Obligations.NoStepOfALegalStateStops : Prop :=
  (∀ s : State, s.Inv → ∃ t, step s = .next t) ∧
  (∀ (s : State) (f : Fault), step s = .fault f → s.runState ≠ .idle ∧ 16 ≤ s.pc.toNat) ∧
  ∀ (s : State) (r : Refusal), step s ≠ .refused r

/-- No step erases what the host has collected, reset included (10_state R22; the record is the model's own, log 2 and
log 3). -/
def Obligations.CollectedOutputIsNeverErased : Prop :=
  ∀ s t : State, step s = .next t → s.events <+: t.events ∧ s.responses <+: t.responses

/-- The fault mark of 93_implementation_defined U1 and U2: a next state with no fault recorded was not reached through an
operand fetch past memory, nor through ADD or SUB with an invalid index, and no step ever clears the mark (log 9). -/
def Obligations.UndefinedCasesLeaveAFaultMark : Prop :=
  (∀ (s t : State) (b1 b2 : Byte), t.noFaultRecorded = true →
    (∀ i ∈ [Instr.add b1 b2, .sub b1 b2], exec i s = .next t →
      s.pc.toNat ≤ 13 ∧ b1.toNat < 4 ∧ b2.toNat < 4) ∧
    (exec (.load b1 b2) s = .next t → s.pc.toNat ≤ 13) ∧
    (exec (.jump b1) s = .next t → s.pc.toNat ≤ 14)) ∧
  ∀ (n : Nat) (s t : State), Host.Core.run Sys2Proof.core n s = .next t →
    t.noFaultRecorded = true → s.noFaultRecorded = true

/-! ### Reset and the host (45_host_commands, 70_reset_and_hazards) -/

/-- The state after power-on: every cell, register, `flags`, `pc` and `ir` zero, IDLE (10_state R23; that `run_state` is IDLE
is the spec's own, decision D9). -/
def Obligations.ResetStateIsAllZero : Prop :=
  (∀ a, a < 16 → Memory.read a State.reset.mem = some 0x00) ∧ (∀ i, State.reset.regs.get i = 0x00) ∧
  State.reset.flags = 0x00 ∧ State.reset.pc = 0 ∧ State.reset.ir = 0x00 ∧ State.reset.runState = .idle

/-- The reset input, at any time and from any state: the whole architectural state becomes the reset state, no event is
reported, nothing collected is lost. Decision D11, from general knowledge (R142). -/
def Obligations.ResetInputForcesTheResetState : Prop :=
  ∀ s : State, s.input = .rst →
    step s = .next { State.reset with
      hostIn := s.hostIn.tail, events := s.events, responses := s.responses }

/-- The command `reset` while idle (45_host_commands section 2): the reset of 70_reset_and_hazards section 1, whatever the state was, response OK without data, no event. -/
def Obligations.ResetCommandZeroesEverything : Prop :=
  ∀ s : State, s.runState = .idle → s.input = .command .reset →
    step s = .next { State.reset with
      hostIn := s.hostIn.tail, events := s.events, responses := s.responses ++ [⟨.ok, none⟩] }

/-- The command `readMemory` while idle; out of range it answers InvalidAddress with data 0x00, which is decision D13. -/
def Obligations.ReadMemoryAnswersTheCell : Prop :=
  ∀ (s : State) (addr : Byte), s.runState = .idle → s.input = .command (.readMemory addr) →
    step s = .next { s with
      hostIn := s.hostIn.tail
      responses := s.responses ++
        [match Memory.read addr.toNat s.mem with
          | some v => ⟨.ok, some v⟩
          | none => ⟨.invalidAddress, some 0x00⟩] }

/-- The command `writeMemory` while idle: in range the cell takes the value, every other cell keeps its own, status OK; out
of range nothing changes and the status is InvalidAddress (45_host_commands). -/
def Obligations.WriteMemoryStoresOneByte : Prop :=
  ∀ (s : State) (addr value : Byte), Memory.wf s.mem → s.runState = .idle →
    s.input = .command (.writeMemory addr value) →
    (addr.toNat < 16 → ∃ t, step s = .next t ∧
      t = { s with
        mem := t.mem, hostIn := s.hostIn.tail, responses := s.responses ++ [⟨.ok, none⟩] } ∧
      Memory.read addr.toNat t.mem = some value ∧
      ∀ a, a ≠ addr.toNat → Memory.read a t.mem = Memory.read a s.mem) ∧
    (16 ≤ addr.toNat →
      step s = .next { s with
        hostIn := s.hostIn.tail, responses := s.responses ++ [⟨.invalidAddress, none⟩] })

/-- The command `readRegister` while idle; an index of 4 or more answers InvalidRegister with data 0x00, which is
decision D13. -/
def Obligations.ReadRegisterAnswersTheRegister : Prop :=
  ∀ (s : State) (idx : Byte), s.runState = .idle → s.input = .command (.readRegister idx) →
    (∀ i : Fin 4, idx.toNat = i.val →
      step s = .next { s with
        hostIn := s.hostIn.tail, responses := s.responses ++ [⟨.ok, some (s.regs.get i)⟩] }) ∧
    (4 ≤ idx.toNat →
      step s = .next { s with
        hostIn := s.hostIn.tail, responses := s.responses ++ [⟨.invalidRegister, some 0x00⟩] })

/-- A byte the host writes is the byte it then reads (20_memory R30, the source's round trip), as two commands. -/
def Obligations.HostReadsBackWhatItWrote : Prop :=
  ∀ (s : State) (addr value : Byte) (l : List HostInput), Memory.wf s.mem → s.runState = .idle →
    addr.toNat < 16 →
    s.hostIn = .command (.writeMemory addr value) :: .command (.readMemory addr) :: l →
    ∃ t : State, Host.Core.run Sys2Proof.core 2 s = .next t ∧ t.hostIn = l ∧
      t.responses = s.responses ++ [⟨.ok, none⟩, ⟨.ok, some value⟩]

/-- A command presented during a run is not performed, gets no response and is not remembered: the step is the one with
nothing presented. Decision D10. -/
def Obligations.CommandsDuringARunAreDropped : Prop :=
  ∀ (s : State) (c : Command) (l : List HostInput), s.runState ≠ .idle →
    step { s with hostIn := .command c :: l } = step { s with hostIn := .quiet :: l } ∧
    ∀ t, step { s with hostIn := .command c :: l } = .next t → t.responses = s.responses ∧ t.hostIn = l

/-- An idle block with nothing presented holds all its state (60_exceptions section 5; log 6, and log 1 for the consumed
input). -/
def Obligations.IdleBlockHoldsItsState : Prop :=
  ∀ s : State, s.runState = .idle → s.input = .quiet → step s = .next { s with hostIn := s.hostIn.tail }

/-- A finished run cannot be repeated (70_reset_and_hazards section 2, a rule the spec marks [derived]): with `pc` at 16 or
more, no host action but a reset ever makes another instruction execute. -/
def Obligations.FinishedRunNeedsAReset : Prop :=
  ∀ (s : State) (n : Nat), s.runState = .idle → 16 ≤ s.pc.toNat →
    (∀ h ∈ s.hostIn, h ≠ .rst ∧ h ≠ .command .reset) →
    ∃ t : State, Host.Core.run Sys2Proof.core n s = .next t ∧ t.runState = .idle ∧ t.pc = s.pc ∧
      t.regs = s.regs ∧ t.flags = s.flags ∧ t.ir = s.ir ∧ t.events = s.events

/-- The observation outputs (45_host_commands section 3, decision D14): `running` is 1 exactly while a run is in progress, and
while it is 0 the three value outputs show the registers exactly. -/
def Obligations.ObservationOutputsWhileIdle : Prop :=
  ∀ s : State, (s.running = true ↔ s.runState = .fetch ∨ s.runState = .execute) ∧
    (s.running = false → s.observe = some (s.pc, s.ir, s.flags))
end

