-- ==== Sys2Proof/Laws/Decode.lean ====
section
/-! SUPPORT. The laws of the opcode map: each opcode byte is in exactly the row of the table that selects it, and what the
decoder answers for each row. -/

namespace Sys2Proof

/-- The match and mask of a row as spec/opcode_table.json gives them. -/
def Row.maskMatch : Row → Byte × Byte
  | .noop => (0xFF, 0x00)
  | .load => (0xFF, 0x01)
  | .add => (0xFF, 0x02)
  | .sub => (0xFF, 0x03)
  | .jump => (0xFF, 0x04)
  | .unknown05 => (0xFF, 0x05)
  | .unknown06 => (0xFE, 0x06)
  | .unknown08 => (0xF8, 0x08)
  | .unknown10 => (0xF0, 0x10)
  | .unknown20 => (0xE0, 0x20)
  | .unknown40 => (0xC0, 0x40)
  | .unknown80 => (0x80, 0x80)

/-- The twelve rows. -/
def Row.all : List Row :=
  [.noop, .load, .add, .sub, .jump, .unknown05, .unknown06, .unknown08, .unknown10, .unknown20, .unknown40, .unknown80]

/-- Among the rows of the table, exactly the one the decoder selects matches an opcode byte: the rows cover all 256 bytes
and no two overlap. -/
theorem Row.ofOpcode_iff_matches :
    ∀ op : Byte, ∀ r ∈ Row.all, (inRow r.maskMatch.1 r.maskMatch.2 op = true ↔ Row.ofOpcode op = r) := by
  decide

/-- An opcode byte matches the row that the decoder selects for it. -/
theorem Row.matches_ofOpcode (op : Byte) :
    inRow (Row.ofOpcode op).maskMatch.1 (Row.ofOpcode op).maskMatch.2 op = true :=
  (Row.ofOpcode_iff_matches op _ (by cases Row.ofOpcode op <;> decide)).mpr rfl

/-- A byte that matches a row of the table is decoded as that row. -/
theorem Row.ofOpcode_of_matches {op : Byte} (r : Row) (h : inRow r.maskMatch.1 r.maskMatch.2 op = true) :
    Row.ofOpcode op = r :=
  (Row.ofOpcode_iff_matches op r (by cases r <;> decide)).mp h

/-- A row whose mask is 0xFF is one opcode. -/
theorem inRow_full {pat op : Byte} : inRow 0xFF pat op = true ↔ op = pat := by
  have h : op &&& 0xFF = op := BitVec.and_allOnes
  rw [inRow, beq_iff_eq, h]

/-- The opcode bytes of the rows of one opcode. -/
theorem Row.opcode_of_single {op : Byte} {r : Row} (h : Row.ofOpcode op = r) (hr : r.maskMatch.1 = 0xFF) :
    op = r.maskMatch.2 := by
  have hm := Row.matches_ofOpcode op
  rw [h, hr] at hm
  exact inRow_full.mp hm

/-- The opcode of a well-formed instruction selects a row of the instruction's length. -/
theorem opcodeLength_opcode {i : Instr} (h : i.wellFormed = true) : opcodeLength i.opcode = i.length := by
  cases i <;> first
    | decide
    | rfl
    | (simp only [Instr.opcode, opcodeLength]
       first
         | rw [Row.ofOpcode_of_matches .unknown06 h]; rfl
         | rw [Row.ofOpcode_of_matches .unknown08 h]; rfl
         | rw [Row.ofOpcode_of_matches .unknown10 h]; rfl
         | rw [Row.ofOpcode_of_matches .unknown20 h]; rfl
         | rw [Row.ofOpcode_of_matches .unknown40 h]; rfl
         | rw [Row.ofOpcode_of_matches .unknown80 h]; rfl)

/-- The opcodes 0x05 to 0xFF are one byte long and decode to an unknown instruction that carries the opcode (R58). -/
theorem decodeFrom_unknown {op : Byte} (h : 5 ≤ op.toNat) :
    opcodeLength op = 1 ∧
    ∃ i : Instr, i.wellFormed = true ∧ i.opcode = op ∧ i.operands = [] ∧
      i ∈ [Instr.unknown05, .unknown06 op, .unknown08 op, .unknown10 op, .unknown20 op, .unknown40 op,
        .unknown80 op] ∧
      ∀ rest, decodeFrom op rest = .ok (i, rest) := by
  have hm := Row.matches_ofOpcode op
  have none_of {r : Row} (hr : Row.ofOpcode op = r) (h1 : r.maskMatch.1 = 0xFF) (h2 : r.maskMatch.2.toNat < 5) :
      False := by
    rw [Row.opcode_of_single hr h1] at h
    omega
  cases hr : Row.ofOpcode op with
  | noop => exact (none_of hr rfl (by decide)).elim
  | load => exact (none_of hr rfl (by decide)).elim
  | add => exact (none_of hr rfl (by decide)).elim
  | sub => exact (none_of hr rfl (by decide)).elim
  | jump => exact (none_of hr rfl (by decide)).elim
  | unknown05 =>
    exact ⟨by rw [opcodeLength, hr]; rfl, .unknown05, rfl, (Row.opcode_of_single hr rfl).symm, rfl, by simp,
      fun rest => by simp only [decodeFrom, hr]⟩
  | unknown06 =>
    rw [hr] at hm
    exact ⟨by rw [opcodeLength, hr]; rfl, .unknown06 op, hm, rfl, rfl, by simp, fun rest => by simp only [decodeFrom, hr]⟩
  | unknown08 =>
    rw [hr] at hm
    exact ⟨by rw [opcodeLength, hr]; rfl, .unknown08 op, hm, rfl, rfl, by simp, fun rest => by simp only [decodeFrom, hr]⟩
  | unknown10 =>
    rw [hr] at hm
    exact ⟨by rw [opcodeLength, hr]; rfl, .unknown10 op, hm, rfl, rfl, by simp, fun rest => by simp only [decodeFrom, hr]⟩
  | unknown20 =>
    rw [hr] at hm
    exact ⟨by rw [opcodeLength, hr]; rfl, .unknown20 op, hm, rfl, rfl, by simp, fun rest => by simp only [decodeFrom, hr]⟩
  | unknown40 =>
    rw [hr] at hm
    exact ⟨by rw [opcodeLength, hr]; rfl, .unknown40 op, hm, rfl, rfl, by simp, fun rest => by simp only [decodeFrom, hr]⟩
  | unknown80 =>
    rw [hr] at hm
    exact ⟨by rw [opcodeLength, hr]; rfl, .unknown80 op, hm, rfl, rfl, by simp, fun rest => by simp only [decodeFrom, hr]⟩

/-- Every opcode byte is one of the five instructions' or 0x05 and above (R55). -/
theorem opcode_cases (op : Byte) :
    op = 0x00 ∨ op = 0x01 ∨ op = 0x02 ∨ op = 0x03 ∨ op = 0x04 ∨ 5 ≤ op.toNat := by
  bv_omega

/-! What the decoder answers for the five instructions. -/

@[simp] theorem decodeFrom_noop (l : List Byte) : decodeFrom 0x00 l = .ok (.noop, l) := rfl
@[simp] theorem decodeFrom_load (a b : Byte) (l : List Byte) : decodeFrom 0x01 (a :: b :: l) = .ok (.load a b, l) := rfl
@[simp] theorem decodeFrom_add (a b : Byte) (l : List Byte) : decodeFrom 0x02 (a :: b :: l) = .ok (.add a b, l) := rfl
@[simp] theorem decodeFrom_sub (a b : Byte) (l : List Byte) : decodeFrom 0x03 (a :: b :: l) = .ok (.sub a b, l) := rfl
@[simp] theorem decodeFrom_jump (a : Byte) (l : List Byte) : decodeFrom 0x04 (a :: l) = .ok (.jump a, l) := rfl

/-- The three-byte instructions without both operand bytes, and JUMP without its one, are rejected as truncated. -/
theorem decodeFrom_truncated :
    (∀ op ∈ [(0x01 : Byte), 0x02, 0x03], ∀ l : List Byte, l.length < 2 → decodeFrom op l = .error ⟨3⟩) ∧
    decodeFrom 0x04 [] = .error ⟨2⟩ := by
  refine ⟨fun op hop l hl => ?_, rfl⟩
  match l, hl with
  | [], _ => fin_cases hop <;> rfl
  | [_], _ => fin_cases hop <;> rfl

/-- `decode` is `decodeFrom` at the head byte. -/
theorem decode_cons_ok {op : Byte} {l : List Byte} {r : Instr × List Byte} :
    decode (op :: l) = .ok r ↔ decodeFrom op l = .ok r := by
  simp only [decode]
  split <;> simp_all

theorem decode_cons_error {op : Byte} {l : List Byte} {t : Truncated} :
    decode (op :: l) = .error (.truncated t) ↔ decodeFrom op l = .error t := by
  simp only [decode]
  split <;> simp_all

end Sys2Proof
end

