-- ==== Sys2Proof/Laws/Memory.lean ====
section
/-! SUPPORT. The laws of memory: read after write, and that every operation keeps the canonical form. -/

namespace Sys2Proof.Machine

theorem Memory.read_of_lt {a : Nat} (m : Memory) (h : a < 16) : Memory.read a m = some (Memory.lookup a m) :=
  if_pos h

theorem Memory.read_of_ge {a : Nat} (m : Memory) (h : 16 ≤ a) : Memory.read a m = none :=
  if_neg (Nat.not_lt.mpr h)

theorem Memory.write_of_lt {a : Nat} (v : Byte) (m : Memory) (h : a < 16) :
    Memory.write a v m = some (Memory.insert a v m) :=
  if_pos h

theorem Memory.write_of_ge {a : Nat} (v : Byte) (m : Memory) (h : 16 ≤ a) : Memory.write a v m = none :=
  if_neg (Nat.not_lt.mpr h)

theorem Memory.read_eq_some {a : Nat} {m : Memory} {b : Byte} :
    Memory.read a m = some b ↔ a < 16 ∧ Memory.lookup a m = b := by
  unfold Memory.read
  split <;> simp_all

theorem Memory.read_nil {a : Nat} (h : a < 16) : Memory.read a [] = some 0x00 := Memory.read_of_lt [] h

/-- An address below every listed one reads as unlisted. -/
theorem Memory.lookup_of_lt (m : Memory) (a : Nat) (h : ∀ c ∈ m, a < c.1) : Memory.lookup a m = Memory.unlisted := by
  induction m with
  | nil => rfl
  | cons c m ih =>
    have hc : c.1 ≠ a := (h c (by simp)).ne'
    simp only [Memory.lookup, if_neg hc]
    exact ih fun d hd => h d (by simp [hd])

theorem Memory.lookup_insert_other (m : Memory) {a b : Nat} (v : Byte) (h : b ≠ a) :
    Memory.lookup b (Memory.insert a v m) = Memory.lookup b m := by
  induction m with
  | nil => unfold Memory.insert; split <;> simp [Memory.lookup, h.symm]
  | cons c m ih =>
    unfold Memory.insert
    split
    · split <;> simp [Memory.lookup, h.symm]
    · split
      · rename_i hac
        subst hac
        split <;> simp [Memory.lookup, h.symm]
      · simp only [Memory.lookup, ih]

theorem Memory.lookup_insert_same (m : Memory) (a : Nat) (v : Byte) (h : m.Pairwise (fun c d => c.1 < d.1)) :
    Memory.lookup a (Memory.insert a v m) = v := by
  induction m with
  | nil => unfold Memory.insert; split <;> simp_all [Memory.lookup]
  | cons c m ih =>
    have hc : ∀ d ∈ m, c.1 < d.1 := fun _ => List.rel_of_pairwise_cons h
    unfold Memory.insert
    split
    · rename_i hlt
      split
      · rename_i hv
        rw [hv]
        refine Memory.lookup_of_lt _ _ fun d hd => ?_
        rcases List.mem_cons.mp hd with rfl | hd
        · exact hlt
        · exact hlt.trans (hc d hd)
      · simp [Memory.lookup]
    · split
      · rename_i heq
        split
        · rename_i hv
          rw [hv]
          exact Memory.lookup_of_lt _ _ fun d hd => heq ▸ hc d hd
        · simp [Memory.lookup]
      · rename_i hne
        simp only [Memory.lookup, if_neg (Ne.symm hne)]
        exact ih h.of_cons

/-- A listed cell of the memory after a store was listed before it, or is the one stored. -/
theorem Memory.mem_insert {m : Memory} {a : Nat} {v : Byte} {d : Host.Cell} (h : d ∈ Memory.insert a v m) :
    d ∈ m ∨ (d = (a, v) ∧ v ≠ Memory.unlisted) := by
  induction m with
  | nil =>
    unfold Memory.insert at h
    split at h <;> simp_all
  | cons c m ih =>
    unfold Memory.insert at h
    split at h
    · split at h <;> simp_all
      tauto
    · split at h
      · split at h <;> simp_all
        tauto
      · rcases List.mem_cons.mp h with rfl | h
        · simp
        · rcases ih h with h | h
          · simp [h]
          · exact .inr h

/-- A store keeps the canonical form. -/
theorem Memory.wf_insert {m : Memory} {a : Nat} (v : Byte) (hm : Memory.wf m) (ha : a < 16) :
    Memory.wf (Memory.insert a v m) := by
  obtain ⟨hp, hv⟩ := hm
  refine ⟨?_, fun d hd => ?_⟩
  · clear hv
    induction m with
    | nil => unfold Memory.insert; split <;> simp
    | cons c m ih =>
      have hc : ∀ d ∈ m, c.1 < d.1 := fun _ => List.rel_of_pairwise_cons hp
      unfold Memory.insert
      split
      · rename_i hlt
        split
        · exact hp
        · refine List.pairwise_cons.mpr ⟨fun d hd => ?_, hp⟩
          rcases List.mem_cons.mp hd with rfl | hd
          · exact hlt
          · exact hlt.trans (hc d hd)
      · rename_i hge
        split
        · rename_i heq
          split
          · exact hp.of_cons
          · exact List.pairwise_cons.mpr ⟨fun d hd => heq ▸ hc d hd, hp.of_cons⟩
        · rename_i hne
          refine List.pairwise_cons.mpr ⟨fun d hd => ?_, ih hp.of_cons⟩
          rcases Memory.mem_insert hd with hd | ⟨rfl, -⟩
          · exact hc d hd
          · show c.1 < a
            omega
  · rcases Memory.mem_insert hd with hd | ⟨rfl, hne⟩
    · exact hv d hd
    · exact ⟨ha, hne⟩

/-- A write through the arbiter keeps the canonical form. -/
theorem Memory.wf_write {m m' : Memory} {a : Nat} {v : Byte} (hm : Memory.wf m) (h : Memory.write a v m = some m') :
    Memory.wf m' := by
  unfold Memory.write at h
  split at h
  · cases h
    exact Memory.wf_insert v hm ‹_›
  · cases h

/-- Placing bytes keeps the canonical form. -/
theorem Memory.wf_place (bytes : List Byte) (a : Nat) (m : Memory) (hm : Memory.wf m) :
    Memory.wf (Memory.place a bytes m) := by
  induction bytes generalizing a m with
  | nil => exact hm
  | cons b bytes ih =>
    refine ih _ _ ?_
    cases h : Memory.write a b m with
    | none => exact hm
    | some m' => exact Memory.wf_write hm h

/-- The memory after reset is in canonical form. -/
theorem Memory.wf_reset : Memory.wf State.reset.mem := by decide

theorem Memory.bytesFrom_zero (a : Nat) (m : Memory) : Memory.bytesFrom a 0 m = [] := rfl

theorem Memory.bytesFrom_of_lt {a : Nat} (n : Nat) (m : Memory) (h : a < 16) :
    Memory.bytesFrom a (n + 1) m = Memory.lookup a m :: Memory.bytesFrom (a + 1) n m := by
  simp [Memory.bytesFrom, Memory.read_of_lt m h]

theorem Memory.bytesFrom_of_ge {a : Nat} (n : Nat) (m : Memory) (h : 16 ≤ a) : Memory.bytesFrom a n m = [] := by
  cases n <;> simp [Memory.bytesFrom, Memory.read_of_ge m h]

end Sys2Proof.Machine
end

