-- ==== Sys2Proof/Laws/State.lean ====
section
/-! SUPPORT. One lemma per field per update of the state, each true by definition, so that no later proof unfolds a record
update. -/

namespace Sys2Proof.Machine

/-! The sizes of the hardware as numerals -/

@[simp] theorem memSize_eq : Config.memSize = 16 := rfl
@[simp] theorem numRegs_eq : Config.numRegs = 4 := rfl

variable (s : State)

/-! `setReg` -/

@[simp] theorem State.setReg_mem (i : Fin 4) (v : Byte) : (s.setReg i v).mem = s.mem := rfl
@[simp] theorem State.setReg_regs (i : Fin 4) (v : Byte) : (s.setReg i v).regs = s.regs.set i v := rfl
@[simp] theorem State.setReg_flags (i : Fin 4) (v : Byte) : (s.setReg i v).flags = s.flags := rfl
@[simp] theorem State.setReg_pc (i : Fin 4) (v : Byte) : (s.setReg i v).pc = s.pc := rfl
@[simp] theorem State.setReg_ir (i : Fin 4) (v : Byte) : (s.setReg i v).ir = s.ir := rfl
@[simp] theorem State.setReg_runState (i : Fin 4) (v : Byte) : (s.setReg i v).runState = s.runState := rfl
@[simp] theorem State.setReg_hostIn (i : Fin 4) (v : Byte) : (s.setReg i v).hostIn = s.hostIn := rfl
@[simp] theorem State.setReg_events (i : Fin 4) (v : Byte) : (s.setReg i v).events = s.events := rfl
@[simp] theorem State.setReg_responses (i : Fin 4) (v : Byte) : (s.setReg i v).responses = s.responses := rfl

/-! `setFlags` -/

@[simp] theorem State.setFlags_mem (v : Byte) : (s.setFlags v).mem = s.mem := rfl
@[simp] theorem State.setFlags_regs (v : Byte) : (s.setFlags v).regs = s.regs := rfl
@[simp] theorem State.setFlags_flags (v : Byte) : (s.setFlags v).flags = v := rfl
@[simp] theorem State.setFlags_pc (v : Byte) : (s.setFlags v).pc = s.pc := rfl
@[simp] theorem State.setFlags_ir (v : Byte) : (s.setFlags v).ir = s.ir := rfl
@[simp] theorem State.setFlags_runState (v : Byte) : (s.setFlags v).runState = s.runState := rfl
@[simp] theorem State.setFlags_hostIn (v : Byte) : (s.setFlags v).hostIn = s.hostIn := rfl
@[simp] theorem State.setFlags_events (v : Byte) : (s.setFlags v).events = s.events := rfl
@[simp] theorem State.setFlags_responses (v : Byte) : (s.setFlags v).responses = s.responses := rfl

/-! `setPc` -/

@[simp] theorem State.setPc_mem (v : Byte) : (s.setPc v).mem = s.mem := rfl
@[simp] theorem State.setPc_regs (v : Byte) : (s.setPc v).regs = s.regs := rfl
@[simp] theorem State.setPc_flags (v : Byte) : (s.setPc v).flags = s.flags := rfl
@[simp] theorem State.setPc_pc (v : Byte) : (s.setPc v).pc = v := rfl
@[simp] theorem State.setPc_ir (v : Byte) : (s.setPc v).ir = s.ir := rfl
@[simp] theorem State.setPc_runState (v : Byte) : (s.setPc v).runState = s.runState := rfl
@[simp] theorem State.setPc_hostIn (v : Byte) : (s.setPc v).hostIn = s.hostIn := rfl
@[simp] theorem State.setPc_events (v : Byte) : (s.setPc v).events = s.events := rfl
@[simp] theorem State.setPc_responses (v : Byte) : (s.setPc v).responses = s.responses := rfl

/-! `advance` -/

@[simp] theorem State.advance_mem (n : Nat) : (s.advance n).mem = s.mem := rfl
@[simp] theorem State.advance_regs (n : Nat) : (s.advance n).regs = s.regs := rfl
@[simp] theorem State.advance_flags (n : Nat) : (s.advance n).flags = s.flags := rfl
@[simp] theorem State.advance_pc (n : Nat) : (s.advance n).pc = s.pc + BitVec.ofNat 8 n := rfl
@[simp] theorem State.advance_ir (n : Nat) : (s.advance n).ir = s.ir := rfl
@[simp] theorem State.advance_runState (n : Nat) : (s.advance n).runState = s.runState := rfl
@[simp] theorem State.advance_hostIn (n : Nat) : (s.advance n).hostIn = s.hostIn := rfl
@[simp] theorem State.advance_events (n : Nat) : (s.advance n).events = s.events := rfl
@[simp] theorem State.advance_responses (n : Nat) : (s.advance n).responses = s.responses := rfl

/-! `setIr` -/

@[simp] theorem State.setIr_mem (v : Byte) : (s.setIr v).mem = s.mem := rfl
@[simp] theorem State.setIr_regs (v : Byte) : (s.setIr v).regs = s.regs := rfl
@[simp] theorem State.setIr_flags (v : Byte) : (s.setIr v).flags = s.flags := rfl
@[simp] theorem State.setIr_pc (v : Byte) : (s.setIr v).pc = s.pc := rfl
@[simp] theorem State.setIr_ir (v : Byte) : (s.setIr v).ir = v := rfl
@[simp] theorem State.setIr_runState (v : Byte) : (s.setIr v).runState = s.runState := rfl
@[simp] theorem State.setIr_hostIn (v : Byte) : (s.setIr v).hostIn = s.hostIn := rfl
@[simp] theorem State.setIr_events (v : Byte) : (s.setIr v).events = s.events := rfl
@[simp] theorem State.setIr_responses (v : Byte) : (s.setIr v).responses = s.responses := rfl

/-! `setRunState` -/

@[simp] theorem State.setRunState_mem (r : RunState) : (s.setRunState r).mem = s.mem := rfl
@[simp] theorem State.setRunState_regs (r : RunState) : (s.setRunState r).regs = s.regs := rfl
@[simp] theorem State.setRunState_flags (r : RunState) : (s.setRunState r).flags = s.flags := rfl
@[simp] theorem State.setRunState_pc (r : RunState) : (s.setRunState r).pc = s.pc := rfl
@[simp] theorem State.setRunState_ir (r : RunState) : (s.setRunState r).ir = s.ir := rfl
@[simp] theorem State.setRunState_runState (r : RunState) : (s.setRunState r).runState = r := rfl
@[simp] theorem State.setRunState_hostIn (r : RunState) : (s.setRunState r).hostIn = s.hostIn := rfl
@[simp] theorem State.setRunState_events (r : RunState) : (s.setRunState r).events = s.events := rfl
@[simp] theorem State.setRunState_responses (r : RunState) : (s.setRunState r).responses = s.responses := rfl

/-! `setMem` -/

@[simp] theorem State.setMem_mem (m : Memory) : (s.setMem m).mem = m := rfl
@[simp] theorem State.setMem_regs (m : Memory) : (s.setMem m).regs = s.regs := rfl
@[simp] theorem State.setMem_flags (m : Memory) : (s.setMem m).flags = s.flags := rfl
@[simp] theorem State.setMem_pc (m : Memory) : (s.setMem m).pc = s.pc := rfl
@[simp] theorem State.setMem_ir (m : Memory) : (s.setMem m).ir = s.ir := rfl
@[simp] theorem State.setMem_runState (m : Memory) : (s.setMem m).runState = s.runState := rfl
@[simp] theorem State.setMem_hostIn (m : Memory) : (s.setMem m).hostIn = s.hostIn := rfl
@[simp] theorem State.setMem_events (m : Memory) : (s.setMem m).events = s.events := rfl
@[simp] theorem State.setMem_responses (m : Memory) : (s.setMem m).responses = s.responses := rfl

/-! `raise` -/

@[simp] theorem State.raise_mem (d : Diagnostic) (b : Byte) : (s.raise d b).mem = s.mem := rfl
@[simp] theorem State.raise_regs (d : Diagnostic) (b : Byte) : (s.raise d b).regs = s.regs := rfl
@[simp] theorem State.raise_flags (d : Diagnostic) (b : Byte) : (s.raise d b).flags = s.flags := rfl
@[simp] theorem State.raise_pc (d : Diagnostic) (b : Byte) : (s.raise d b).pc = s.pc := rfl
@[simp] theorem State.raise_ir (d : Diagnostic) (b : Byte) : (s.raise d b).ir = s.ir := rfl
@[simp] theorem State.raise_runState (d : Diagnostic) (b : Byte) : (s.raise d b).runState = s.runState := rfl
@[simp] theorem State.raise_hostIn (d : Diagnostic) (b : Byte) : (s.raise d b).hostIn = s.hostIn := rfl
@[simp] theorem State.raise_events (d : Diagnostic) (b : Byte) : (s.raise d b).events = s.events ++ [⟨d, s.pc, b⟩] := rfl
@[simp] theorem State.raise_responses (d : Diagnostic) (b : Byte) : (s.raise d b).responses = s.responses := rfl

/-! `respond` -/

@[simp] theorem State.respond_mem (st : Status) (d : Option Byte) : (s.respond st d).mem = s.mem := rfl
@[simp] theorem State.respond_regs (st : Status) (d : Option Byte) : (s.respond st d).regs = s.regs := rfl
@[simp] theorem State.respond_flags (st : Status) (d : Option Byte) : (s.respond st d).flags = s.flags := rfl
@[simp] theorem State.respond_pc (st : Status) (d : Option Byte) : (s.respond st d).pc = s.pc := rfl
@[simp] theorem State.respond_ir (st : Status) (d : Option Byte) : (s.respond st d).ir = s.ir := rfl
@[simp] theorem State.respond_runState (st : Status) (d : Option Byte) : (s.respond st d).runState = s.runState := rfl
@[simp] theorem State.respond_hostIn (st : Status) (d : Option Byte) : (s.respond st d).hostIn = s.hostIn := rfl
@[simp] theorem State.respond_events (st : Status) (d : Option Byte) : (s.respond st d).events = s.events := rfl
@[simp] theorem State.respond_responses (st : Status) (d : Option Byte) : (s.respond st d).responses = s.responses ++ [⟨st, d⟩] := rfl

/-! `dropInput` -/

@[simp] theorem State.dropInput_mem : (s.dropInput).mem = s.mem := rfl
@[simp] theorem State.dropInput_regs : (s.dropInput).regs = s.regs := rfl
@[simp] theorem State.dropInput_flags : (s.dropInput).flags = s.flags := rfl
@[simp] theorem State.dropInput_pc : (s.dropInput).pc = s.pc := rfl
@[simp] theorem State.dropInput_ir : (s.dropInput).ir = s.ir := rfl
@[simp] theorem State.dropInput_runState : (s.dropInput).runState = s.runState := rfl
@[simp] theorem State.dropInput_hostIn : (s.dropInput).hostIn = s.hostIn.tail := rfl
@[simp] theorem State.dropInput_events : (s.dropInput).events = s.events := rfl
@[simp] theorem State.dropInput_responses : (s.dropInput).responses = s.responses := rfl

/-! `toReset` -/

@[simp] theorem State.toReset_mem : (s.toReset).mem = [] := rfl
@[simp] theorem State.toReset_regs : (s.toReset).regs = ⟨0, 0, 0, 0⟩ := rfl
@[simp] theorem State.toReset_flags : (s.toReset).flags = 0 := rfl
@[simp] theorem State.toReset_pc : (s.toReset).pc = 0 := rfl
@[simp] theorem State.toReset_ir : (s.toReset).ir = 0 := rfl
@[simp] theorem State.toReset_runState : (s.toReset).runState = .idle := rfl
@[simp] theorem State.toReset_hostIn : (s.toReset).hostIn = s.hostIn := rfl
@[simp] theorem State.toReset_events : (s.toReset).events = s.events := rfl
@[simp] theorem State.toReset_responses : (s.toReset).responses = s.responses := rfl

/-! The registers behind the fields -/

@[simp] theorem RegFile.get_set_same (r : RegFile) (i : Fin 4) (v : Byte) : (r.set i v).get i = v := by
  fin_cases i <;> rfl

theorem RegFile.get_set_other (r : RegFile) {i j : Fin 4} (v : Byte) (h : j ≠ i) : (r.set i v).get j = r.get j := by
  fin_cases i <;> fin_cases j <;> first | rfl | exact absurd rfl h

/-- Two register files that read alike are equal. -/
theorem RegFile.ext_get {r q : RegFile} (h : ∀ i, r.get i = q.get i) : r = q := by
  obtain ⟨r0, r1, r2, r3⟩ := r
  obtain ⟨q0, q1, q2, q3⟩ := q
  have h0 : r0 = q0 := h 0
  have h1 : r1 = q1 := h 1
  have h2 : r2 = q2 := h 2
  have h3 : r3 = q3 := h 3
  subst h0 h1 h2 h3
  rfl

theorem State.reg_eq (i : Fin 4) : s.reg i = s.regs.get i := rfl

end Sys2Proof.Machine
end

