-- ==== Sys2Proof/Laws/Ops.lean ====
section
/-! SUPPORT. One lemma per shared operation of the meanings, saying once everything it can do. -/

namespace Sys2Proof.Machine

/-! ### Operand forms -/

theorem registerOperand_eq_some {b : Byte} {r : Fin 4} : registerOperand b = some r ↔ b.toNat = r.val := by
  unfold registerOperand
  split
  · simp [Fin.ext_iff]
  · rename_i h
    simp only [reduceCtorEq, false_iff]
    exact fun he => h (he ▸ r.isLt)

theorem registerOperand_eq_none {b : Byte} : registerOperand b = none ↔ 4 ≤ b.toNat := by
  unfold registerOperand
  split <;> simp_all

/-- Both indices valid, or the first invalid one. -/
theorem registerOperands_cases (b1 b2 : Byte) :
    (∃ r1 r2 : Fin 4, b1.toNat = r1.val ∧ b2.toNat = r2.val ∧ registerOperands b1 b2 = .ok (r1, r2)) ∨
    (4 ≤ b1.toNat ∧ registerOperands b1 b2 = .error b1) ∨
    (b1.toNat < 4 ∧ 4 ≤ b2.toNat ∧ registerOperands b1 b2 = .error b2) := by
  unfold registerOperands
  cases h1 : registerOperand b1 with
  | none => exact .inr (.inl ⟨registerOperand_eq_none.mp h1, rfl⟩)
  | some r1 =>
    have e1 := registerOperand_eq_some.mp h1
    cases h2 : registerOperand b2 with
    | none => exact .inr (.inr ⟨e1 ▸ r1.isLt, registerOperand_eq_none.mp h2, rfl⟩)
    | some r2 => exact .inl ⟨r1, r2, e1, registerOperand_eq_some.mp h2, rfl⟩

theorem registerOperands_ok {b1 b2 : Byte} {r1 r2 : Fin 4} (h1 : b1.toNat = r1.val) (h2 : b2.toNat = r2.val) :
    registerOperands b1 b2 = .ok (r1, r2) := by
  simp [registerOperands, registerOperand_eq_some.mpr h1, registerOperand_eq_some.mpr h2]

theorem addressOperand_of_lt {b : Byte} (h : b.toNat < 16) : addressOperand b = some b := if_pos h

theorem addressOperand_of_ge {b : Byte} (h : 16 ≤ b.toNat) : addressOperand b = none := if_neg (Nat.not_lt.mpr h)

/-! ### Operand fetch -/

theorem State.ifFetched_of_le {s : State} {len : Nat} (k : State) (h : s.pc.toNat + len ≤ 16) :
    s.ifFetched len k = k := by
  simp [State.ifFetched, State.fits, h]

theorem State.ifFetched_of_gt {s : State} {len : Nat} (k : State) (h : 16 < s.pc.toNat + len) :
    s.ifFetched len k = s.abandon len := by
  simp [State.ifFetched, State.fits, Nat.not_le.mpr h]

/-- An abandoned instruction reports and advances; it does nothing else (R71). -/
theorem State.abandon_eq (s : State) (len : Nat) :
    s.abandon len =
      { s with pc := s.pc + BitVec.ofNat 8 len, events := s.events ++ [⟨.invalidAddress, s.pc, 16⟩] } := rfl

/-! ### ADD and SUB -/

/-- What the register file holds after the update ADD and SUB share: zero in `r2`, the result in `r1` unless it is the same
register, the others as before, and `flags` from the result. -/
theorem State.combine_spec (s : State) (f : Byte → Byte → Byte) (r1 r2 : Fin 4) :
    (s.combine f r1 r2).regs.get r2 = 0x00 ∧
    (r1 ≠ r2 → (s.combine f r1 r2).regs.get r1 = f (s.regs.get r1) (s.regs.get r2)) ∧
    (∀ q, q ≠ r1 → q ≠ r2 → (s.combine f r1 r2).regs.get q = s.regs.get q) ∧
    (s.combine f r1 r2).flags = flagsOf (f (s.regs.get r1) (s.regs.get r2)) ∧
    s.combine f r1 r2 = { s with
      regs := (s.combine f r1 r2).regs, flags := (s.combine f r1 r2).flags } := by
  refine ⟨RegFile.get_set_same _ _ _, fun h => ?_, fun q h1 h2 => ?_, rfl, rfl⟩
  · show ((s.regs.set r1 _).set r2 _).get r1 = _
    rw [RegFile.get_set_other _ _ h, RegFile.get_set_same]
    rfl
  · show ((s.regs.set r1 _).set r2 _).get q = _
    rw [RegFile.get_set_other _ _ h2, RegFile.get_set_other _ _ h1]

/-- Everything ADD and SUB can do: be abandoned, update, or report an invalid index (R71, R90, R91, R94). -/
theorem arithmetic_cases (f : Byte → Byte → Byte) (b1 b2 : Byte) (s : State) :
    (16 < s.pc.toNat + 3 ∧ arithmetic f b1 b2 s = s.abandon 3) ∨
    (∃ r1 r2 : Fin 4, b1.toNat = r1.val ∧ b2.toNat = r2.val ∧
      arithmetic f b1 b2 s = (s.combine f r1 r2).advance 3) ∨
    (∃ bad, ((4 ≤ b1.toNat ∧ bad = b1) ∨ (b1.toNat < 4 ∧ 4 ≤ b2.toNat ∧ bad = b2)) ∧
      arithmetic f b1 b2 s = (s.raise .invalidRegister bad).advance 3) := by
  unfold arithmetic
  by_cases hf : s.pc.toNat + 3 ≤ 16
  · rw [State.ifFetched_of_le _ hf]
    rcases registerOperands_cases b1 b2 with ⟨r1, r2, h1, h2, h⟩ | ⟨h1, h⟩ | ⟨h1, h2, h⟩ <;> rw [h]
    · exact .inr (.inl ⟨r1, r2, h1, h2, rfl⟩)
    · exact .inr (.inr ⟨b1, .inl ⟨h1, rfl⟩, rfl⟩)
    · exact .inr (.inr ⟨b2, .inr ⟨h1, h2, rfl⟩, rfl⟩)
  · exact .inl ⟨by omega, State.ifFetched_of_gt _ (by omega)⟩

/-! ### What the meanings can do -/

/-- Everything LOAD can do (R85). -/
theorem execLoad_cases (reg value : Byte) (s : State) :
    (16 < s.pc.toNat + 3 ∧ execLoad reg value s = .next (s.abandon 3)) ∨
    (∃ r : Fin 4, reg.toNat = r.val ∧ execLoad reg value s = .next ((s.setReg r value).advance 3)) ∨
    (4 ≤ reg.toNat ∧ execLoad reg value s = .next ((s.raise .invalidRegister reg).advance 3)) := by
  unfold execLoad
  by_cases hf : s.pc.toNat + 3 ≤ 16
  · rw [State.ifFetched_of_le _ hf]
    cases h : registerOperand reg with
    | some r => exact .inr (.inl ⟨r, registerOperand_eq_some.mp h, rfl⟩)
    | none => exact .inr (.inr ⟨registerOperand_eq_none.mp h, rfl⟩)
  · rw [State.ifFetched_of_gt _ (by omega)]
    exact .inl ⟨by omega, rfl⟩

/-- Everything JUMP can do (R100). -/
theorem execJump_cases (address : Byte) (s : State) :
    (16 < s.pc.toNat + 2 ∧ execJump address s = .next (s.abandon 2)) ∨
    (s.pc.toNat ≤ 14 ∧ address.toNat < 16 ∧ execJump address s = .next (s.setPc address)) ∨
    (s.pc.toNat ≤ 14 ∧ 16 ≤ address.toNat ∧ execJump address s = .next (s.raise .invalidAddress address)) := by
  unfold execJump
  by_cases hf : s.pc.toNat + 2 ≤ 16
  · rw [State.ifFetched_of_le _ hf]
    by_cases ha : address.toNat < 16
    · rw [addressOperand_of_lt ha]
      exact .inr (.inl ⟨by omega, ha, rfl⟩)
    · rw [addressOperand_of_ge (by omega)]
      exact .inr (.inr ⟨by omega, by omega, rfl⟩)
  · rw [State.ifFetched_of_gt _ (by omega)]
    exact .inl ⟨by omega, rfl⟩

/-- An unknown opcode reports and advances; it does nothing else (R81). -/
theorem reportUnknown_eq (op : Byte) (s : State) :
    reportUnknown op s =
      { s with pc := s.pc + 1, events := s.events ++ [⟨.unknownInstruction, s.pc, op⟩] } := rfl

/-! ### Flags -/

theorem flagsOf_cases (v : Byte) : flagsOf v = 0x00 ∨ flagsOf v = 0x01 := by
  unfold flagsOf
  split <;> simp

end Sys2Proof.Machine
end

