-- ==== Sys2Proof/Laws/PerInstr.lean ====
section
/-! SUPPORT. The family `Shape`, one lemma per constructor of `Instr`: an encoding is the opcode byte and then the operand
bytes, as long as 30_encoding R51 says and never longer than three bytes. -/

namespace Sys2Proof.Laws.Shape

/-- The shape of an instruction's encoding (R50, R51). -/
def Statement (i : Instr) : Prop :=
  (encode i).head? = some i.opcode ∧ (encode i).length = i.length ∧ i.length ≤ 3

theorem noop : Statement .noop := by simp [Statement, encode, Instr.operands, Instr.length]
theorem load (reg value : Byte) : Statement (.load reg value) := by
  simp [Statement, encode, Instr.operands, Instr.length]
theorem add (reg1 reg2 : Byte) : Statement (.add reg1 reg2) := by
  simp [Statement, encode, Instr.operands, Instr.length]
theorem sub (reg1 reg2 : Byte) : Statement (.sub reg1 reg2) := by
  simp [Statement, encode, Instr.operands, Instr.length]
theorem jump (address : Byte) : Statement (.jump address) := by
  simp [Statement, encode, Instr.operands, Instr.length]
theorem unknown05 : Statement .unknown05 := by simp [Statement, encode, Instr.operands, Instr.length]
theorem unknown06 (op : Byte) : Statement (.unknown06 op) := by
  simp [Statement, encode, Instr.operands, Instr.length]
theorem unknown08 (op : Byte) : Statement (.unknown08 op) := by
  simp [Statement, encode, Instr.operands, Instr.length]
theorem unknown10 (op : Byte) : Statement (.unknown10 op) := by
  simp [Statement, encode, Instr.operands, Instr.length]
theorem unknown20 (op : Byte) : Statement (.unknown20 op) := by
  simp [Statement, encode, Instr.operands, Instr.length]
theorem unknown40 (op : Byte) : Statement (.unknown40 op) := by
  simp [Statement, encode, Instr.operands, Instr.length]
theorem unknown80 (op : Byte) : Statement (.unknown80 op) := by
  simp [Statement, encode, Instr.operands, Instr.length]

end Sys2Proof.Laws.Shape
end

