-- ==== Sys2Proof/Laws/Step.lean ====
section
/-! SUPPORT. What a step can do: one lemma for each part of the cycle. -/

namespace Sys2Proof.Machine

/-! ### The four kinds of step -/

theorem step_rst {s : State} (h : s.input = .rst) : step s = .next s.dropInput.toReset := by
  simp [step, cycle, h]

theorem step_idle {s : State} (h : s.input ≠ .rst) (hr : s.runState = .idle) :
    step s = .next (idleOne s.input s.dropInput) := by
  unfold step cycle
  cases hi : s.input with
  | rst => exact absurd hi h
  | quiet => simp only [hr]
  | command c => simp only [hr]

theorem step_fetch {s : State} (h : s.input ≠ .rst) (hr : s.runState = .fetch) : step s = runOne s.dropInput := by
  unfold step cycle
  cases hi : s.input with
  | rst => exact absurd hi h
  | quiet => simp only [hr]
  | command c => simp only [hr]

theorem step_execute {s : State} (h : s.input ≠ .rst) (hr : s.runState = .execute) :
    step s = executeOpcode s.dropInput := by
  unfold step cycle
  cases hi : s.input with
  | rst => exact absurd hi h
  | quiet => simp only [hr]
  | command c => simp only [hr]

/-! ### Fetch and Execute -/

theorem fetchOpcode_of_lt {s : State} (h : s.pc.toNat < 16) :
    fetchOpcode s = some ((s.setIr (Memory.lookup s.pc.toNat s.mem)).setRunState .execute) := by
  simp [fetchOpcode, Memory.read_of_lt _ h]

theorem runOne_of_lt {s : State} (h : s.pc.toNat < 16) :
    runOne s = executeOpcode ((s.setIr (Memory.lookup s.pc.toNat s.mem)).setRunState .execute) := by
  simp [runOne, fetchOpcode_of_lt h]

theorem runOne_of_ge {s : State} (h : 16 ≤ s.pc.toNat) : runOne s = .fault .ranPastMemory := by
  simp [runOne, fetchOpcode, Memory.read_of_ge _ h]

theorem executeOpcode_of_ge {s : State} (h : 16 ≤ s.pc.toNat) : executeOpcode s = .fault .ranPastMemory :=
  if_neg (Nat.not_lt.mpr h)

theorem executeOpcode_ok {s : State} {i : Instr} {rest : List Byte} (h : s.pc.toNat < 16)
    (hd : decodeFrom s.ir (operandBytes s) = .ok (i, rest)) : executeOpcode s = settle (exec i s) := by
  simp [executeOpcode, h, hd]

theorem executeOpcode_truncated {s : State} {t : Truncated} (h : s.pc.toNat < 16)
    (hd : decodeFrom s.ir (operandBytes s) = .error t) :
    executeOpcode s = settle (.next (s.abandon t.length)) := by
  simp [executeOpcode, h, hd]

/-- The operand bytes of a three-byte instruction that fits, of a JUMP that fits, and of a one-byte opcode. -/
theorem operandBytes_three {s : State} (hl : opcodeLength s.ir = 3) (h : s.pc.toNat ≤ 13) :
    operandBytes s = [Memory.lookup (s.pc.toNat + 1) s.mem, Memory.lookup (s.pc.toNat + 2) s.mem] := by
  simp only [operandBytes, hl]
  rw [Memory.bytesFrom_of_lt 1 _ (by omega), Memory.bytesFrom_of_lt 0 _ (by omega), Memory.bytesFrom_zero]

theorem operandBytes_two {s : State} (hl : opcodeLength s.ir = 2) (h : s.pc.toNat ≤ 14) :
    operandBytes s = [Memory.lookup (s.pc.toNat + 1) s.mem] := by
  simp only [operandBytes, hl]
  rw [Memory.bytesFrom_of_lt 0 _ (by omega), Memory.bytesFrom_zero]

theorem operandBytes_one {s : State} (hl : opcodeLength s.ir = 1) : operandBytes s = [] := by
  simp only [operandBytes, hl, Nat.sub_self]
  rfl

/-- Fewer than two operand bytes of a three-byte instruction at 14 or 15 exist. -/
theorem operandBytes_short {s : State} (hl : opcodeLength s.ir = 3) (h : 14 ≤ s.pc.toNat) :
    (operandBytes s).length < 2 := by
  simp only [operandBytes, hl]
  by_cases h14 : s.pc.toNat = 14
  · rw [h14, Memory.bytesFrom_of_lt 1 _ (by omega), Memory.bytesFrom_of_ge _ _ (by omega)]
    simp
  · rw [Memory.bytesFrom_of_ge _ _ (by omega)]
    simp

/-- The operand byte of a JUMP at 15 does not exist. -/
theorem operandBytes_none {s : State} (h : 15 ≤ s.pc.toNat) : operandBytes s = [] :=
  Memory.bytesFrom_of_ge _ _ (by omega)

/-- Everything Execute can do below 16, by the opcode in `ir` (R67, R71): the instruction with the operand bytes that are
there, or, where one is missing, an effect that is the instruction's whatever its operands. -/
theorem executeOpcode_cases {s : State} (h : s.pc.toNat < 16) :
    (s.ir = 0x00 ∧ executeOpcode s = settle (exec .noop s)) ∨
    (∃ g : Byte → Byte → Instr,
      ((s.ir = 0x01 ∧ g = Instr.load) ∨ (s.ir = 0x02 ∧ g = Instr.add) ∨ (s.ir = 0x03 ∧ g = Instr.sub)) ∧
      ((s.pc.toNat ≤ 13 ∧
        executeOpcode s = settle (exec (g (Memory.lookup (s.pc.toNat + 1) s.mem)
          (Memory.lookup (s.pc.toNat + 2) s.mem)) s)) ∨
       (14 ≤ s.pc.toNat ∧ executeOpcode s = settle (.next (s.abandon 3)) ∧
        ∀ b1 b2, exec (g b1 b2) s = .next (s.abandon 3)))) ∨
    (s.ir = 0x04 ∧
      ((s.pc.toNat ≤ 14 ∧ executeOpcode s = settle (exec (.jump (Memory.lookup (s.pc.toNat + 1) s.mem)) s)) ∨
       (s.pc.toNat = 15 ∧ executeOpcode s = settle (.next (s.abandon 2)) ∧
        ∀ b, exec (.jump b) s = .next (s.abandon 2)))) ∨
    (5 ≤ s.ir.toNat ∧ ∃ i : Instr, i.wellFormed = true ∧ i.opcode = s.ir ∧
      exec i s = .next (reportUnknown s.ir s) ∧ executeOpcode s = settle (exec i s)) := by
  have three {g : Byte → Byte → Instr} (hl : opcodeLength s.ir = 3) (hop : s.ir ∈ [(0x01 : Byte), 0x02, 0x03])
      (hg : ∀ a b l, decodeFrom s.ir (a :: b :: l) = .ok (g a b, l))
      (ha : 14 ≤ s.pc.toNat → ∀ b1 b2, exec (g b1 b2) s = .next (s.abandon 3)) :
      (s.pc.toNat ≤ 13 ∧
        executeOpcode s = settle (exec (g (Memory.lookup (s.pc.toNat + 1) s.mem)
          (Memory.lookup (s.pc.toNat + 2) s.mem)) s)) ∨
       (14 ≤ s.pc.toNat ∧ executeOpcode s = settle (.next (s.abandon 3)) ∧
        ∀ b1 b2, exec (g b1 b2) s = .next (s.abandon 3)) := by
    by_cases hp : s.pc.toNat ≤ 13
    · exact .inl ⟨hp, executeOpcode_ok h (by rw [operandBytes_three hl hp]; exact hg _ _ _)⟩
    · exact .inr ⟨by omega,
        executeOpcode_truncated h (decodeFrom_truncated.1 _ hop _ (operandBytes_short hl (by omega))),
        ha (by omega)⟩
  rcases opcode_cases s.ir with h0 | h1 | h2 | h3 | h4 | h5
  · refine .inl ⟨h0, executeOpcode_ok (rest := operandBytes s) h ?_⟩
    rw [h0]
    rfl
  · refine .inr (.inl ⟨.load, .inl ⟨h1, rfl⟩, three (by rw [h1]; rfl) (by simp [h1]) (by rw [h1]; exact fun _ _ _ => rfl) ?_⟩)
    intro hp b1 b2
    exact congrArg Host.Outcome.next (State.ifFetched_of_gt _ (by omega))
  · refine .inr (.inl ⟨.add, .inr (.inl ⟨h2, rfl⟩), three (by rw [h2]; rfl) (by simp [h2]) (by rw [h2]; exact fun _ _ _ => rfl) ?_⟩)
    intro hp b1 b2
    exact congrArg Host.Outcome.next (State.ifFetched_of_gt _ (by omega))
  · refine .inr (.inl ⟨.sub, .inr (.inr ⟨h3, rfl⟩), three (by rw [h3]; rfl) (by simp [h3]) (by rw [h3]; exact fun _ _ _ => rfl) ?_⟩)
    intro hp b1 b2
    exact congrArg Host.Outcome.next (State.ifFetched_of_gt _ (by omega))
  · refine .inr (.inr (.inl ⟨h4, ?_⟩))
    by_cases hp : s.pc.toNat ≤ 14
    · refine .inl ⟨hp, executeOpcode_ok (rest := []) h ?_⟩
      rw [operandBytes_two (by rw [h4]; rfl) hp, h4]
      rfl
    · refine .inr ⟨by omega, executeOpcode_truncated h (t := ⟨2⟩) ?_, fun b => ?_⟩
      · rw [operandBytes_none (by omega), h4]
        rfl
      · exact congrArg Host.Outcome.next (State.ifFetched_of_gt _ (by omega))
  · obtain ⟨-, i, hw, ho, -, hmem, hd⟩ := decodeFrom_unknown h5
    refine .inr (.inr (.inr ⟨h5, i, hw, ho, ?_, executeOpcode_ok h (hd _)⟩))
    rw [← ho]
    simp only [List.mem_cons, List.not_mem_nil, or_false] at hmem
    rcases hmem with rfl | rfl | rfl | rfl | rfl | rfl | rfl <;> rfl

/-! ### The host's moves -/

theorem performWriteMemory_of_lt {addr : Byte} (value : Byte) {s : State} (h : addr.toNat < 16) :
    performWriteMemory addr value s = (s.setMem (Memory.insert addr.toNat value s.mem)).respond .ok none := by
  simp [performWriteMemory, Memory.write_of_lt _ _ h]

theorem performWriteMemory_of_ge {addr : Byte} (value : Byte) {s : State} (h : 16 ≤ addr.toNat) :
    performWriteMemory addr value s = s.respond .invalidAddress none := by
  simp [performWriteMemory, Memory.write_of_ge _ _ h]

theorem performReadRegister_of_lt {idx : Byte} {s : State} {i : Fin 4} (h : idx.toNat = i.val) :
    performReadRegister idx s = s.respond .ok (some (s.regs.get i)) := by
  have hlt : idx.toNat < 4 := h ▸ i.isLt
  have hi : (⟨idx.toNat, hlt⟩ : Fin 4) = i := Fin.ext h
  simp only [performReadRegister, Config.numRegs, dif_pos hlt, State.reg, hi]

theorem performReadRegister_of_ge {idx : Byte} {s : State} (h : 4 ≤ idx.toNat) :
    performReadRegister idx s = s.respond .invalidRegister (some 0x00) :=
  dif_neg (Nat.not_lt.mpr h)

theorem performRun_of_lt {s : State} (h : s.pc.toNat < 16) : performRun s = s.setRunState .fetch := if_pos h

theorem performRun_of_ge {s : State} (h : 16 ≤ s.pc.toNat) : performRun s = s := if_neg (Nat.not_lt.mpr h)

/-- Everything an accepted command can change (R106 to R110): a reset, a response, a stored byte, or the start of a run. -/
theorem perform_cases (c : Command) (s : State) :
    (c = .reset ∧ perform c s = s.toReset.respond .ok none) ∨
    (∃ st d, perform c s = s.respond st d) ∨
    (∃ a v, a < 16 ∧ perform c s = (s.setMem (Memory.insert a v s.mem)).respond .ok none) ∨
    (c = .run ∧ s.pc.toNat < 16 ∧ perform c s = s.setRunState .fetch) ∨
    (c = .run ∧ 16 ≤ s.pc.toNat ∧ perform c s = s) := by
  cases c with
  | reset => exact .inl ⟨rfl, rfl⟩
  | readMemory addr =>
    refine .inr (.inl ?_)
    simp only [perform, performReadMemory]
    split <;> exact ⟨_, _, rfl⟩
  | writeMemory addr value =>
    by_cases h : addr.toNat < 16
    · exact .inr (.inr (.inl ⟨_, value, h, performWriteMemory_of_lt value h⟩))
    · exact .inr (.inl ⟨_, _, performWriteMemory_of_ge value (by omega)⟩)
  | readRegister idx =>
    refine .inr (.inl ?_)
    simp only [perform, performReadRegister]
    split <;> exact ⟨_, _, rfl⟩
  | run =>
    by_cases h : s.pc.toNat < 16
    · exact .inr (.inr (.inr (.inl ⟨rfl, h, if_pos h⟩)))
    · exact .inr (.inr (.inr (.inr ⟨rfl, by omega, if_neg h⟩)))

/-! ### Runs of several steps -/

theorem run_zero (s : State) : Host.Core.run Sys2Proof.core 0 s = .next s := rfl

theorem run_succ {s t : State} (n : Nat) (h : step s = .next t) :
    Host.Core.run Sys2Proof.core (n + 1) s = Host.Core.run Sys2Proof.core n t := by
  have hs : Host.Core.step Sys2Proof.core s = .next t := h
  simp only [Host.Core.run, hs]

end Sys2Proof.Machine
end

