-- ==== Sys2Proof/Tests/Slice0.lean ====
section
/-! SUPPORT. Tests of the model against spec/: the checks of WellFormed, one word per row of the opcode table, one-step
vectors of 95_test_vectors (each names its vector), and for every statement with hypotheses a witness that they can be met. -/

namespace Sys2Proof.Tests

open Sys2Proof Sys2Proof.Machine

/-! ### WellFormed: an ill-formed term for each check (the rows' match and mask in spec/opcode_table.json) -/

theorem test_wf_row06 : (Instr.unknown06 0x08).wellFormed = false ∧ (Instr.unknown06 0x07).wellFormed = true := by decide
theorem test_wf_row08 : (Instr.unknown08 0x10).wellFormed = false ∧ (Instr.unknown08 0x0F).wellFormed = true := by decide
theorem test_wf_row10 : (Instr.unknown10 0x20).wellFormed = false ∧ (Instr.unknown10 0x1F).wellFormed = true := by decide
theorem test_wf_row20 : (Instr.unknown20 0x1F).wellFormed = false ∧ (Instr.unknown20 0x20).wellFormed = true := by decide
theorem test_wf_row40 : (Instr.unknown40 0x80).wellFormed = false ∧ (Instr.unknown40 0x7F).wellFormed = true := by decide
theorem test_wf_row80 : (Instr.unknown80 0x7F).wellFormed = false ∧ (Instr.unknown80 0x80).wellFormed = true := by decide

/-! ### Decoding: a word of each row, written out from 30_encoding R55 and the table's "encoding" -/

theorem test_decode_noop : decode [0b00000000] = .ok (.noop, []) := by decide
theorem test_decode_load : decode [0b00000001, 0b00000010, 0b10011001] = .ok (.load 2 0x99, []) := by decide
theorem test_decode_add : decode [0b00000010, 0b00000011, 0b00000001] = .ok (.add 3 1, []) := by decide
theorem test_decode_sub : decode [0b00000011, 0b11001000, 0b11001001] = .ok (.sub 0xC8 0xC9, []) := by decide
theorem test_decode_jump : decode [0b00000100, 0b00001111, 0b00000000] = .ok (.jump 15, [0]) := by decide
theorem test_decode_05 : decode [0b00000101] = .ok (.unknown05, []) := by decide
theorem test_decode_06 : decode [0b00000111, 0b00000001] = .ok (.unknown06 0x07, [0x01]) := by decide
theorem test_decode_08 : decode [0b00001000] = .ok (.unknown08 0x08, []) := by decide
theorem test_decode_10 : decode [0b00010000] = .ok (.unknown10 0x10, []) := by decide
theorem test_decode_20 : decode [0b00111111] = .ok (.unknown20 0x3F, []) := by decide
theorem test_decode_40 : decode [0b01000000] = .ok (.unknown40 0x40, []) := by decide
theorem test_decode_80 : decode [0b10000001, 0b00000000, 0b00000101] = .ok (.unknown80 0x81, [0x00, 0x05]) := by decide

/-- Rejected by name (R71): a JUMP without its operand byte, no byte at all. -/
theorem test_decode_rejects :
    decode [0x04] = .error (.truncated ⟨2⟩) ∧ decode [0x01, 0x02] = .error (.truncated ⟨3⟩) ∧
    decode [] = .error .empty := by decide

/-- The table's numbering: the first byte is the least significant; the operand bits may be left out. -/
theorem test_table_word :
    decodeTableWord 24 0x050001 = some (.load 0 5) ∧ decodeTableWord 8 0x04 = some (.jump 0) := by decide

/-! ### One step -/

/-- A state about to fetch at `pc`, with these bytes there. -/
def at_ (pc : Byte) (bytes : List Byte) (regs : RegFile) (flags : Byte) : State :=
  { State.reset with
    mem := Memory.place pc.toNat bytes [], pc := pc, regs := regs, flags := flags, runState := .fetch }

/-- An idle state to which the host presents one input. -/
def idleWith (input : HostInput) (regs : RegFile) (mem : Memory) : State :=
  { State.reset with mem := mem, regs := regs, hostIn := [input] }

/-- The state after one step, if there is one. -/
def after (s : State) : Option State :=
  match step s with
  | .next t => some t
  | .fault _ => none
  | .refused _ => none

/-- What the vectors list: `x`, `flags`, `pc`, `ir`. -/
def shown (s : State) : RegFile × Byte × Byte × Byte := (s.regs, s.flags, s.pc, s.ir)

/-- V2. -/
theorem test_noop_at_15 : (after (at_ 15 [0x00] ⟨0, 0, 0, 0⟩ 0)).map (fun t => (t.pc, t.runState)) = some (16, .idle) := by
  decide

/-- V3. -/
theorem test_noop_keeps : (after (at_ 4 [0x00] ⟨1, 2, 3, 4⟩ 1)).map shown = some (⟨1, 2, 3, 4⟩, 1, 5, 0x00) := by decide

/-- V12. -/
theorem test_load_zero_keeps_flag :
    (after (at_ 0 [0x01, 0x02, 0x00] ⟨0, 0, 9, 0⟩ 1)).map shown = some (⟨0, 0, 0, 0⟩, 1, 3, 0x01) := by decide

/-- V19: the fetch failure wins over the invalid index. -/
theorem test_load_truncated :
    (after (at_ 14 [0x01, 0x09] ⟨0, 0, 0, 0⟩ 0)).map (fun t => (t.pc, t.events, t.runState)) =
      some (17, [⟨.invalidAddress, 14, 16⟩], .idle) := by decide

/-- V21. -/
theorem test_add_wraps : (after (at_ 0 [0x02, 0x00, 0x01] ⟨200, 56, 0, 0⟩ 0)).map shown = some (⟨0, 0, 0, 0⟩, 1, 3, 0x02) := by
  decide

/-- V25. -/
theorem test_add_same_register :
    (after (at_ 3 [0x02, 0x00, 0x00] ⟨0x45, 0, 0, 0⟩ 0)).map shown = some (⟨0, 0, 0, 0⟩, 0, 6, 0x02) := by decide

/-- V40: operand 1 is the minuend and the destination. -/
theorem test_sub_operand_order :
    (after (at_ 0 [0x03, 0x01, 0x00] ⟨2, 10, 0, 0⟩ 0)).map shown = some (⟨0, 8, 0, 0⟩, 0, 3, 0x03) := by decide

/-- V35: one event, naming operand 1. -/
theorem test_sub_invalid_indices :
    (after (at_ 3 [0x03, 0xC8, 0xC9] ⟨5, 0, 0, 0⟩ 1)).map (fun t => (shown t, t.events)) =
      some ((⟨5, 0, 0, 0⟩, 1, 6, 0x03), [⟨.invalidRegister, 3, 0xC8⟩]) := by decide

/-- V41 and V43. -/
theorem test_jump :
    (after (at_ 9 [0x04, 0x0F] ⟨0, 0, 0, 0⟩ 0)).map shown = some (⟨0, 0, 0, 0⟩, 0, 15, 0x04) ∧
    (after (at_ 0 [0x04, 0x10] ⟨0, 0, 0, 0⟩ 0)).map (fun t => (t.pc, t.events, t.runState)) =
      some (0, [⟨.invalidAddress, 0, 16⟩], .fetch) := by decide

/-- V47: the JUMP at 15 has no operand byte. -/
theorem test_jump_truncated :
    (after (at_ 15 [0x04] ⟨0, 0, 0, 0⟩ 0)).map (fun t => (t.pc, t.events)) = some (17, [⟨.invalidAddress, 15, 16⟩]) := by
  decide

/-- V4 to V8 and R81 for the other rows: (3, `at`, opcode). -/
theorem test_unknown_rows :
    [((0 : Byte), (0x05 : Byte)), (9, 0x07), (1, 0x0F), (0, 0x10), (2, 0x3F), (3, 0x7F), (15, 0xFF)].map
        (fun c => (after (at_ c.1 [c.2] ⟨0, 0, 0, 0⟩ 1)).map (fun t => (shown t, t.events))) =
      [(0, 0x05), (9, 0x07), (1, 0x0F), (0, 0x10), (2, 0x3F), (3, 0x7F), (15, 0xFF)].map
        (fun c => some ((⟨0, 0, 0, 0⟩, 1, c.1 + 1, c.2), [⟨.unknownInstruction, c.1, c.2⟩])) := by decide

/-- D7's numbers. -/
theorem test_codes :
    (Diagnostic.invalidRegister.code, Diagnostic.invalidAddress.code, Diagnostic.unknownInstruction.code) = (1, 2, 3) ∧
    (Status.ok.code, Status.invalidRegister.code, Status.invalidAddress.code) = (0, 1, 2) := by decide

/-- The next step after placing a word in the reset state runs it (E1's first instruction). -/
theorem test_fetch_word : (after (State.reset.withFetchWord 24 0x050001)).map shown = some (⟨5, 0, 0, 0⟩, 0, 3, 0x01) := by
  decide

/-! ### Host commands -/

/-- V51 and V60: `reset` and `rst` from a state full of values. -/
theorem test_reset_and_rst :
    (after (idleWith (.command .reset) ⟨1, 2, 3, 4⟩ [(0, 0xFF)])).map (fun t => (shown t, t.mem)) =
      some ((⟨0, 0, 0, 0⟩, 0, 0, 0), []) ∧
    (after { at_ 0 [0x04, 0x00] ⟨1, 2, 3, 4⟩ 1 with hostIn := [.rst] }).map (fun t => (shown t, t.mem, t.runState)) =
      some ((⟨0, 0, 0, 0⟩, 0, 0, 0), [], .idle) := by decide

/-- V52 (its write), V53, V54. -/
theorem test_write_memory :
    (after (idleWith (.command (.writeMemory 3 0xAB)) ⟨0, 0, 0, 0⟩ [])).map (fun t => (t.mem, t.responses)) =
      some ([(3, 0xAB)], [⟨.ok, none⟩]) ∧
    (after (idleWith (.command (.writeMemory 16 1)) ⟨0, 0, 0, 0⟩ [])).map (fun t => (t.mem, t.responses)) =
      some ([], [⟨.invalidAddress, none⟩]) ∧
    (after (idleWith (.command (.writeMemory 255 7)) ⟨0, 0, 0, 0⟩ [])).map (fun t => t.mem) = some [] := by decide

/-- V52 (its read), V55. -/
theorem test_read_memory :
    (after (idleWith (.command (.readMemory 3)) ⟨0, 0, 0, 0⟩ [(3, 0xAB)])).map (fun t => t.responses) =
      some [⟨.ok, some 0xAB⟩] ∧
    (after (idleWith (.command (.readMemory 16)) ⟨0, 0, 0, 0⟩ [])).map (fun t => t.responses) =
      some [⟨.invalidAddress, some 0x00⟩] := by decide

/-- V56. -/
theorem test_read_register :
    (after (idleWith (.command (.readRegister 3)) ⟨1, 2, 3, 4⟩ [])).map (fun t => t.responses) = some [⟨.ok, some 4⟩] ∧
    (after (idleWith (.command (.readRegister 4)) ⟨1, 2, 3, 4⟩ [])).map (fun t => t.responses) =
      some [⟨.invalidRegister, some 0x00⟩] := by decide

/-- V58 and R110: `run` from 0 starts, from 16 does not. -/
theorem test_run :
    (after (idleWith (.command .run) ⟨0, 0, 0, 0⟩ [])).map (fun t => (t.runState, t.running)) = some (.fetch, true) ∧
    (after { idleWith (.command .run) ⟨0, 0, 0, 0⟩ [] with pc := 16 }).map (fun t => (t.runState, t.observe)) =
      some (.idle, some (16, 0, 0)) := by decide

/-- V59: a command presented during the run of E2 is dropped. -/
theorem test_command_during_run :
    (after { at_ 0 [0x04, 0x00] ⟨0, 0, 0, 0⟩ 0 with hostIn := [.command (.writeMemory 1 0x0F)] }).map
        (fun t => (t.mem, t.responses, t.hostIn, t.runState)) = some ([(0, 0x04)], [], [], .fetch) := by decide

/-! ### Witnesses: the hypotheses of each statement hold together somewhere -/

/-- The state the witnesses start from: a run at `pc` with these bytes, `x` = [1, 2, 3, 4], `Z` set. -/
def w (pc : Byte) (bytes : List Byte) : State := at_ pc bytes ⟨1, 2, 3, 4⟩ 1

theorem witness_DecodeOfEncodeIsTheInstruction :
    (Instr.unknown06 0x06).wellFormed = true ∧ (Instr.unknown40 0x7F).wellFormed = true ∧
    (Instr.load 0xFF 0).wellFormed = true := by decide

theorem witness_DecodedBytesEncodeBack : decode [0x02, 0xFF, 0x00, 0x07] = .ok (.add 0xFF 0x00, [0x07]) := by decide

theorem witness_OpcodeAloneDecidesLength :
    decode [0xFF] = .ok (.unknown80 0xFF, []) ∧ decode [0x03, 0x00] = .error (.truncated ⟨3⟩) ∧
    decode [0x04, 0x00] = .ok (.jump 0, []) ∧ decode [0x04] = .error (.truncated ⟨2⟩) := by decide

theorem witness_WriteThenReadReturnsTheByte : Memory.wf [(3, 0xAB), (15, 0x01)] ∧ 15 < 16 := by decide

theorem witness_ArbiterChecksEveryAddress :
    Memory.read 15 [(15, 0x01)] = some 0x01 ∧ Memory.read 16 [(15, 0x01)] = none ∧
    Memory.write 16 7 [] = none ∧ Memory.write 15 7 [] = some [(15, 7)] := by decide

theorem witness_FetchLoadsOnlyTheInstructionRegister : (w 15 [0x01]).runState = .fetch ∧ (w 15 [0x01]).pc.toNat < 16 := by
  decide

/-- An EXECUTE state with `ir` the opcode at `pc` and its operand bytes there. -/
def wExecute (pc : Byte) (bytes : List Byte) (op : Byte) : State := { w pc bytes with ir := op, runState := .execute }

theorem witness_ExecutePerformsTheInstructionOfIr :
    (wExecute 13 [0x02, 0x00, 0x01] 0x02).runState = .execute ∧ (wExecute 13 [0x02, 0x00, 0x01] 0x02).pc.toNat < 16 ∧
    Memory.read 13 (wExecute 13 [0x02, 0x00, 0x01] 0x02).mem = some 0x02 ∧
    Memory.read 14 (wExecute 13 [0x02, 0x00, 0x01] 0x02).mem = some 0x00 ∧
    Memory.read 15 (wExecute 13 [0x02, 0x00, 0x01] 0x02).mem = some 0x01 ∧
    Memory.read 15 (wExecute 15 [0x04] 0x04).mem = some 0x04 ∧ Memory.read 16 (wExecute 15 [0x04] 0x04).mem = none ∧
    Memory.read 0 (wExecute 0 [0x05] 0x05).mem = some 0x05 := by decide

theorem witness_StepRunsTheDecodedInstruction :
    (w 13 [0x01, 0x03, 0x99]).runState = .fetch ∧ (w 13 [0x01, 0x03, 0x99]).pc.toNat < 16 ∧
    (w 13 [0x01, 0x03, 0x99]).input ≠ .rst ∧
    decode (Memory.bytesFrom 13 3 (w 13 [0x01, 0x03, 0x99]).mem) = .ok (.load 3 0x99, []) := by decide

theorem witness_TruncatedInstructionEndsTheRun :
    (w 14 [0x03, 0x00]).runState = .fetch ∧ (w 14 [0x03, 0x00]).input ≠ .rst ∧
    Memory.read 14 (w 14 [0x03, 0x00]).mem = some 0x03 ∧ 14 ≤ (w 14 [0x03, 0x00]).pc.toNat ∧
    Memory.read 15 (w 15 [0x04]).mem = some 0x04 ∧ (w 15 [0x04]).pc.toNat = 15 := by decide

theorem witness_NoopOnlyAdvances :
    (w 15 [0x00]).pc.toNat < 16 ∧ (w 15 [0x00]).runState = .fetch ∧ (w 15 [0x00]).input ≠ .rst ∧
    Memory.read 15 (w 15 [0x00]).mem = some 0x00 := by decide

theorem witness_LoadWritesOneRegister : (w 13 []).pc.toNat ≤ 13 ∧ (3 : Byte).toNat = (3 : Fin 4).val := by decide

theorem witness_LoadRefusesInvalidIndex : (w 13 []).pc.toNat ≤ 13 ∧ 4 ≤ (4 : Byte).toNat := by decide

theorem witness_AddOfTwoRegisters :
    (w 13 []).pc.toNat ≤ 13 ∧ (0 : Byte).toNat = (0 : Fin 4).val ∧ (3 : Byte).toNat = (3 : Fin 4).val ∧
    (0 : Fin 4) ≠ 3 := by decide

theorem witness_SubOfTwoRegisters :
    (w 0 []).pc.toNat ≤ 13 ∧ (2 : Byte).toNat = (2 : Fin 4).val ∧ (1 : Byte).toNat = (1 : Fin 4).val ∧
    (2 : Fin 4) ≠ 1 := by decide

theorem witness_SameRegisterEndsZero : (w 13 []).pc.toNat ≤ 13 ∧ (2 : Byte).toNat = (2 : Fin 4).val := by decide

theorem witness_ArithmeticRefusesInvalidIndex :
    (w 13 []).pc.toNat ≤ 13 ∧
    ((4 ≤ (4 : Byte).toNat ∧ (4 : Byte) = 4) ∨ ((4 : Byte).toNat < 4 ∧ 4 ≤ (9 : Byte).toNat ∧ (4 : Byte) = 9)) ∧
    ((4 ≤ (3 : Byte).toNat ∧ (4 : Byte) = 3) ∨ ((3 : Byte).toNat < 4 ∧ 4 ≤ (4 : Byte).toNat ∧ (4 : Byte) = 4)) := by
  decide

theorem witness_OperandsOutsideMemoryAbandon : (w 14 []).pc.toNat = 14 ∧ (w 15 []).pc.toNat = 15 := by decide

theorem witness_JumpTakesValidTarget : (w 14 []).pc.toNat ≤ 14 ∧ (15 : Byte).toNat < 16 := by decide

theorem witness_JumpRefusesInvalidTarget : (w 14 []).pc.toNat ≤ 14 ∧ 16 ≤ (16 : Byte).toNat := by decide

theorem witness_UnknownOpcodeIsReportedAndSkipped :
    (w 15 []).pc.toNat < 16 ∧ Instr.unknown05.wellFormed = true ∧ (Instr.unknown06 0x06).wellFormed = true ∧
    (Instr.unknown08 0x0F).wellFormed = true ∧ (Instr.unknown10 0x1F).wellFormed = true ∧
    (Instr.unknown20 0x20).wellFormed = true ∧ (Instr.unknown40 0x7F).wellFormed = true ∧
    (Instr.unknown80 0xFF).wellFormed = true := by decide

theorem witness_NoRegisterFormsFrame :
    exec .noop (w 0 []) = .next ((w 0 []).advance 1) ∧
    exec (.jump 0x10) (w 0 []) = .next ((w 0 []).raise .invalidAddress 0x10) ∧
    exec (.unknown80 0xFF) (w 0 []) = .next (((w 0 []).raise .unknownInstruction 0xFF).advance 1) := ⟨rfl, rfl, rfl⟩

theorem witness_LoadFrame :
    exec (.load 3 7) (w 0 []) = .next (((w 0 []).setReg 3 7).advance 3) ∧ (2 : Fin 4).val ≠ (3 : Byte).toNat :=
  ⟨rfl, by decide⟩

theorem witness_ArithmeticFrame :
    exec (.add 0 1) (w 0 []) = .next (((w 0 []).combine (fun a b => a + b) 0 1).advance 3) ∧
    exec (.sub 0 4) (w 0 []) = .next (((w 0 []).raise .invalidRegister 4).advance 3) ∧ 4 ≤ (4 : Byte).toNat ∧
    (2 : Fin 4).val ≠ (0 : Byte).toNat ∧ (2 : Fin 4).val ≠ (1 : Byte).toNat := ⟨rfl, rfl, by decide⟩

theorem witness_NoInstructionReadsFlags : exec (.load 0 5) (w 0 []) = .next (((w 0 []).setReg 0 5).advance 3) := rfl

theorem witness_StepChangesOnlyWhatItMay :
    (w 15 [0xFF]).runState = .fetch ∧ (w 15 [0xFF]).pc.toNat < 16 ∧ (w 15 [0xFF]).input ≠ .rst := by decide

theorem witness_RunStateTransitions :
    (idleWith .rst ⟨0, 0, 0, 0⟩ []).input = .rst ∧ (idleWith (.command .run) ⟨0, 0, 0, 0⟩ []).input = .command .run ∧
    (idleWith (.command .run) ⟨0, 0, 0, 0⟩ []).runState = .idle ∧ (w 15 []).runState = .fetch ∧
    (w 15 []).pc.toNat < 16 ∧ (wExecute 15 [] 0x00).runState ≠ .idle ∧ (wExecute 15 [] 0x00).input ≠ .rst := by decide

theorem witness_RunEndsExactlyPastMemory :
    (w 15 [0x01]).runState ≠ .idle ∧ (w 15 [0x01]).pc.toNat < 16 ∧ (w 15 [0x01]).input ≠ .rst ∧
    (after (w 15 [0x01])).map (fun t => t.pc) = some 18 ∧ (after (w 14 [0x00])).map (fun t => t.pc) = some 15 := by decide

theorem witness_NextPcFromPcAndMemoryAlone :
    (w 15 [0x04]).runState = .fetch ∧ (w 15 [0x04]).pc.toNat < 16 ∧ (w 15 [0x04]).input ≠ .rst := by decide

theorem witness_RunEndsWithinSixteenStepsOrNever :
    (w 0 [0x04, 0x10]).runState = .fetch ∧ (w 0 [0x04, 0x10]).pc.toNat < 16 ∧ (w 0 [0x04, 0x10]).hostIn = [] := by decide

theorem witness_MemoryConstantDuringRun :
    (w 0 [0x02]).runState ≠ .idle ∧ (w 0 [0x02]).input ≠ .rst ∧ (after (w 0 [0x02])).isSome = true := by decide

theorem witness_InvalidJumpRepeatsForEver :
    (w 14 [0x04, 0x10]).runState = .fetch ∧ (w 14 [0x04, 0x10]).hostIn = [] ∧ (w 14 [0x04, 0x10]).pc.toNat ≤ 14 ∧
    Memory.read 14 (w 14 [0x04, 0x10]).mem = some 0x04 ∧ Memory.read 15 (w 14 [0x04, 0x10]).mem = some 0x10 ∧
    16 ≤ (0x10 : Byte).toNat := by decide

theorem witness_ClearedMemoryCarriesPcToSixteen :
    (w 0 []).runState = .fetch ∧ (w 0 []).hostIn = [] ∧ (w 0 []).mem = [] ∧ 0 < 16 ∧ 16 ≤ 16 ∧
    (w 0 []).pc.toNat = 16 - 16 ∧ (w 15 []).pc.toNat = 16 - 1 := by decide

/-- An EXECUTE state with an event reported, meeting the invariant. -/
def wLegal : State := { wExecute 13 [0x02, 0x00, 0x01] 0x02 with events := [⟨.unknownInstruction, 12, 0x07⟩] }

theorem witness_EveryStepKeepsTheInvariant : wLegal.Inv ∧ (after wLegal).isSome = true :=
  ⟨⟨by decide, by decide, by decide, by decide, by decide, by decide⟩, by decide⟩

theorem witness_NoStepOfALegalStateStops :
    wLegal.Inv ∧ step { w 0 [] with pc := 16 } = .fault .ranPastMemory :=
  ⟨⟨by decide, by decide, by decide, by decide, by decide, by decide⟩, rfl⟩

theorem witness_UndefinedCasesLeaveAFaultMark :
    ((w 13 []).setReg 0 5).noFaultRecorded = true ∧
    exec (.add 0 1) (w 13 []) = .next (((w 13 []).combine (fun a b => a + b) 0 1).advance 3) ∧
    (((w 13 []).combine (fun a b => a + b) 0 1).advance 3).noFaultRecorded = true ∧
    exec (.jump 5) (w 14 []) = .next ((w 14 []).setPc 5) ∧ ((w 14 []).setPc 5).noFaultRecorded = true ∧
    (after { w 0 [0x00] with events := [⟨.unknownInstruction, 3, 7⟩] }).map State.noFaultRecorded = some true :=
  ⟨by decide, rfl, by decide, rfl, by decide, by decide⟩

theorem witness_CollectedOutputIsNeverErased :
    (after { wLegal with hostIn := [.rst] }).map (fun t => t.events) = some [⟨.unknownInstruction, 12, 0x07⟩] := by decide

theorem witness_ResetInputForcesTheResetState : State.input { wLegal with hostIn := [.rst, .quiet] } = .rst := by decide

theorem witness_ResetCommandZeroesEverything :
    (idleWith (.command .reset) ⟨1, 2, 3, 4⟩ [(0, 1)]).runState = .idle ∧
    (idleWith (.command .reset) ⟨1, 2, 3, 4⟩ [(0, 1)]).input = .command .reset := by decide

theorem witness_ReadMemoryAnswersTheCell :
    (idleWith (.command (.readMemory 15)) ⟨0, 0, 0, 0⟩ [(15, 1)]).runState = .idle ∧
    (idleWith (.command (.readMemory 16)) ⟨0, 0, 0, 0⟩ []).input = .command (.readMemory 16) := by decide

theorem witness_WriteMemoryStoresOneByte :
    Memory.wf (idleWith (.command (.writeMemory 15 9)) ⟨0, 0, 0, 0⟩ [(15, 1)]).mem ∧
    (idleWith (.command (.writeMemory 15 9)) ⟨0, 0, 0, 0⟩ [(15, 1)]).runState = .idle ∧
    (idleWith (.command (.writeMemory 15 9)) ⟨0, 0, 0, 0⟩ [(15, 1)]).input = .command (.writeMemory 15 9) ∧
    (15 : Byte).toNat < 16 ∧ 16 ≤ (16 : Byte).toNat := by decide

theorem witness_ReadRegisterAnswersTheRegister :
    (idleWith (.command (.readRegister 3)) ⟨1, 2, 3, 4⟩ []).runState = .idle ∧
    (idleWith (.command (.readRegister 3)) ⟨1, 2, 3, 4⟩ []).input = .command (.readRegister 3) ∧
    (3 : Byte).toNat = (3 : Fin 4).val ∧ 4 ≤ (4 : Byte).toNat := by decide

theorem witness_HostReadsBackWhatItWrote :
    Memory.wf State.reset.mem ∧
    State.runState { State.reset with hostIn := [.command (.writeMemory 3 0xAB), .command (.readMemory 3)] } = .idle ∧
    (3 : Byte).toNat < 16 := by decide

theorem witness_CommandsDuringARunAreDropped :
    (w 0 [0x04, 0x00]).runState ≠ .idle ∧
    (after { w 0 [0x04, 0x00] with hostIn := [.command .reset] }).isSome = true := by decide

theorem witness_IdleBlockHoldsItsState : State.reset.runState = .idle ∧ State.reset.input = .quiet := by decide

theorem witness_FinishedRunNeedsAReset :
    State.runState { State.reset with pc := 16, hostIn := [.command .run, .command (.writeMemory 0 1), .quiet] } = .idle ∧
    16 ≤ (16 : Byte).toNat ∧
    ∀ h ∈ [HostInput.command .run, .command (.writeMemory 0 1), .quiet], h ≠ .rst ∧ h ≠ .command .reset := by decide

theorem witness_ObservationOutputsWhileIdle :
    State.reset.running = false ∧ State.reset.observe = some (0, 0, 0) ∧ (w 0 []).running = true := by decide

end Sys2Proof.Tests
end

section
/-! The memory and its arbiter (20_memory). -/

namespace Sys2Proof.Machine

theorem Memory.read_insert_same {m : Memory} {a : Nat} (v : Byte) (hm : Memory.wf m) (ha : a < 16) :
    Memory.read a (Memory.insert a v m) = some v :=
  Memory.read_eq_some.mpr ⟨ha, Memory.lookup_insert_same m a v hm.1⟩

/-- Settles O6: on each side of 16 the arbiter's rule for reads and its rule for writes apply (R35). -/
theorem arbiterChecksEveryAddress : Obligations.ArbiterChecksEveryAddress := by
  intro m a v
  constructor
  · intro ha
    exact ⟨⟨Memory.lookup a m, Memory.read_of_lt m ha⟩,
      Memory.insert a v m, Memory.write_of_lt v m ha, fun hm => Memory.read_insert_same v hm ha⟩
  · intro ha
    exact ⟨Memory.read_of_ge m ha, Memory.write_of_ge v m ha⟩

end Sys2Proof.Machine
end

section
/-! Fetch and Execute (40_cycle). -/

namespace Sys2Proof.Machine

/-- Settles O7: below 16 the arbiter answers the cell at `pc`, and Fetch stores that byte (R66). -/
theorem fetchLoadsOnlyTheInstructionRegister : Obligations.FetchLoadsOnlyTheInstructionRegister := by
  intro s _ hpc
  exact ⟨Memory.lookup s.pc.toNat s.mem, Memory.read_of_lt s.mem hpc, fetchOpcode_of_lt hpc⟩

/-- What an instruction's own effect may turn `s` into (R67, R75): other `pc`, registers and `flags`, and at most one
event more, reported by the instruction at `pc`. -/
def InstrEffect (s t : State) : Prop :=
  ∃ new : List Event,
    t = { s with pc := t.pc, regs := t.regs, flags := t.flags, events := s.events ++ new } ∧
    new.length ≤ 1 ∧ ∀ e ∈ new, e.origin = s.pc

/-- An effect that reports nothing. -/
theorem InstrEffect.of_silent {s t : State}
    (h : t = { s with pc := t.pc, regs := t.regs, flags := t.flags }) : InstrEffect s t := by
  refine ⟨[], ?_, by simp, by simp⟩
  rw [List.append_nil]
  exact h

/-- A reported diagnostic, and after it any change of `pc`. -/
theorem InstrEffect.of_raise (s : State) (d : Diagnostic) (info pc : Byte) :
    InstrEffect s ((s.raise d info).setPc pc) :=
  ⟨[⟨d, s.pc, info⟩], rfl, by simp, by simp⟩

theorem InstrEffect.ir_eq {s t : State} (h : InstrEffect s t) : t.ir = s.ir := by
  obtain ⟨new, ht, -, -⟩ := h
  rw [ht]

theorem InstrEffect.mem_eq {s t : State} (h : InstrEffect s t) : t.mem = s.mem := by
  obtain ⟨new, ht, -, -⟩ := h
  rw [ht]

theorem InstrEffect.events_cases {s t : State} (h : InstrEffect s t) :
    t.events = s.events ∨ ∃ e, t.events = s.events ++ [e] := by
  obtain ⟨new, ht, hlen, -⟩ := h
  have hev : t.events = s.events ++ new := congrArg State.events ht
  match new, hlen with
  | [], _ => exact .inl (by rw [hev, List.append_nil])
  | [e], _ => exact .inr ⟨e, hev⟩

/-- ADD and SUB: an abandoned fetch, the update, or an invalid index. -/
theorem arithmetic_effect (f : Byte → Byte → Byte) (reg1 reg2 : Byte) (s : State) :
    InstrEffect s (arithmetic f reg1 reg2 s) := by
  rcases arithmetic_cases f reg1 reg2 s with ⟨-, h⟩ | ⟨r1, r2, -, -, h⟩ | ⟨bad, -, h⟩ <;> rw [h]
  · exact .of_raise ..
  · exact .of_silent rfl
  · exact .of_raise ..

theorem execLoad_effect (reg value : Byte) (s : State) :
    ∃ t, execLoad reg value s = .next t ∧ InstrEffect s t := by
  rcases execLoad_cases reg value s with ⟨-, h⟩ | ⟨r, -, h⟩ | ⟨-, h⟩
  · exact ⟨_, h, .of_raise ..⟩
  · exact ⟨_, h, .of_silent rfl⟩
  · exact ⟨_, h, .of_raise ..⟩

theorem execJump_effect (address : Byte) (s : State) :
    ∃ t, execJump address s = .next t ∧ InstrEffect s t := by
  rcases execJump_cases address s with ⟨-, h⟩ | ⟨-, -, h⟩ | ⟨-, -, h⟩
  · exact ⟨_, h, .of_raise ..⟩
  · exact ⟨_, h, .of_silent rfl⟩
  · exact ⟨_, h, .of_raise s .invalidAddress address s.pc⟩

/-- Every instruction answers a next state, in every state, and changes no more than `InstrEffect` lets it. -/
theorem exec_effect (i : Instr) (s : State) : ∃ t, exec i s = .next t ∧ InstrEffect s t := by
  cases i with
  | noop => exact ⟨_, rfl, .of_silent rfl⟩
  | load reg value => exact execLoad_effect reg value s
  | add reg1 reg2 => exact ⟨_, rfl, arithmetic_effect _ reg1 reg2 s⟩
  | sub reg1 reg2 => exact ⟨_, rfl, arithmetic_effect _ reg1 reg2 s⟩
  | jump address => exact execJump_effect address s
  | unknown05 => exact ⟨_, rfl, .of_raise ..⟩
  | unknown06 op => exact ⟨_, rfl, .of_raise ..⟩
  | unknown08 op => exact ⟨_, rfl, .of_raise ..⟩
  | unknown10 op => exact ⟨_, rfl, .of_raise ..⟩
  | unknown20 op => exact ⟨_, rfl, .of_raise ..⟩
  | unknown40 op => exact ⟨_, rfl, .of_raise ..⟩
  | unknown80 op => exact ⟨_, rfl, .of_raise ..⟩

/-- `i` is the instruction that the opcode `ir` selects with the operand bytes `b1` and `b2` (R55, R67); above 0x04 it is
the well-formed one that carries the opcode. -/
def SelectedBy (ir b1 b2 : Byte) (i : Instr) : Prop :=
  (i = if ir = 0x00 then Instr.noop
    else if ir = 0x01 then Instr.load b1 b2
    else if ir = 0x02 then Instr.add b1 b2
    else if ir = 0x03 then Instr.sub b1 b2
    else if ir = 0x04 then Instr.jump b1
    else i) ∧
  (0x05 ≤ ir.toNat → i.opcode = ir ∧ i.wellFormed = true)

theorem selectedBy_noop (b1 b2 : Byte) : SelectedBy 0x00 b1 b2 .noop := by simp [SelectedBy]
theorem selectedBy_load (b1 b2 : Byte) : SelectedBy 0x01 b1 b2 (.load b1 b2) := by simp [SelectedBy]
theorem selectedBy_add (b1 b2 : Byte) : SelectedBy 0x02 b1 b2 (.add b1 b2) := by simp [SelectedBy]
theorem selectedBy_sub (b1 b2 : Byte) : SelectedBy 0x03 b1 b2 (.sub b1 b2) := by simp [SelectedBy]
theorem selectedBy_jump (b1 b2 : Byte) : SelectedBy 0x04 b1 b2 (.jump b1) := by simp [SelectedBy]

theorem selectedBy_unknown {ir : Byte} (b1 b2 : Byte) {i : Instr} (h : 5 ≤ ir.toNat) (ho : i.opcode = ir)
    (hw : i.wellFormed = true) : SelectedBy ir b1 b2 i := by
  have other (c : Byte) (hc : c.toNat < 5) : ir ≠ c := by
    rintro rfl
    omega
  refine ⟨?_, fun _ => ⟨ho, hw⟩⟩
  rw [if_neg (other 0x00 (by decide)), if_neg (other 0x01 (by decide)), if_neg (other 0x02 (by decide)),
    if_neg (other 0x03 (by decide)), if_neg (other 0x04 (by decide))]

/-- Execute is the effect of the selected instruction and then the run loop's test. Where an operand byte lies outside memory,
`b1` and `b2` stand for nothing: the instruction is abandoned whatever its operands. -/
theorem executeOpcode_of_selected {s : State} {b1 b2 : Byte} (hpc : s.pc.toNat < 16)
    (hb1 : ∀ v, Memory.read (s.pc.toNat + 1) s.mem = some v → b1 = v)
    (hb2 : ∀ v, Memory.read (s.pc.toNat + 2) s.mem = some v → b2 = v) :
    ∃ i, SelectedBy s.ir b1 b2 i ∧ executeOpcode s = settle (exec i s) := by
  have first (h : s.pc.toNat ≤ 14) : Memory.lookup (s.pc.toNat + 1) s.mem = b1 :=
    (hb1 _ (Memory.read_of_lt s.mem (by omega))).symm
  have second (h : s.pc.toNat ≤ 13) : Memory.lookup (s.pc.toNat + 2) s.mem = b2 :=
    (hb2 _ (Memory.read_of_lt s.mem (by omega))).symm
  rcases executeOpcode_cases hpc with ⟨hir, h⟩ | ⟨g, hg, hthree⟩ | ⟨hir, hjump⟩ | ⟨hir, i, hw, ho, -, h⟩
  · exact ⟨.noop, hir ▸ selectedBy_noop b1 b2, h⟩
  · refine ⟨g b1 b2, ?_, ?_⟩
    · rcases hg with ⟨hir, rfl⟩ | ⟨hir, rfl⟩ | ⟨hir, rfl⟩ <;> rw [hir]
      · exact selectedBy_load b1 b2
      · exact selectedBy_add b1 b2
      · exact selectedBy_sub b1 b2
    · rcases hthree with ⟨hp, h⟩ | ⟨-, h, habandon⟩
      · rw [h, first (by omega), second hp]
      · rw [h, habandon]
  · refine ⟨.jump b1, hir ▸ selectedBy_jump b1 b2, ?_⟩
    rcases hjump with ⟨hp, h⟩ | ⟨-, h, habandon⟩
    · rw [h, first hp]
    · rw [h, habandon]
  · exact ⟨i, selectedBy_unknown b1 b2 hir ho hw, h⟩

/-- Settles O8: Execute is the effect of the instruction that `ir` selects, and every instruction's effect keeps `ir` and
memory and reports at most once (R67). -/
theorem executePerformsTheInstructionOfIr : Obligations.ExecutePerformsTheInstructionOfIr := by
  intro s b1 b2 _ hpc _ hb1 hb2
  obtain ⟨i, ⟨hsel, hunknown⟩, hexecute⟩ := executeOpcode_of_selected hpc hb1 hb2
  obtain ⟨t, ht, heffect⟩ := exec_effect i s
  have hnext : executeOpcode s = .next (continueRun t) := by rw [hexecute, ht]; rfl
  exact ⟨i, t, hsel, hunknown, ht, hnext, heffect.ir_eq, heffect.mem_eq, heffect.events_cases⟩

end Sys2Proof.Machine
end

section
/-! NOOP (41_noop_unknown R80). -/

namespace Sys2Proof.Machine

theorem exec_noop (s : State) : exec .noop s = .next { s with pc := s.pc + 1 } := rfl

/-- Execute of 0x00 reads no operand byte, so it is NOOP's effect wherever the opcode lies (R80 corner case b). -/
theorem executeOpcode_of_noop {s : State} (hpc : s.pc.toNat < 16) (hir : s.ir = 0x00) :
    executeOpcode s = settle (exec .noop s) := by
  have hdecode : decodeFrom s.ir (operandBytes s) = .ok (.noop, operandBytes s) := by rw [hir]; rfl
  exact executeOpcode_ok hpc hdecode

/-- After an advance by 1 inside memory the run loop's test fails only at the last cell (R69). -/
theorem continueRun_of_pc_succ {s t : State} (hpc : s.pc.toNat < 16) (ht : t.pc = s.pc + 1) :
    continueRun t = t.setRunState (if s.pc.toNat = 15 then .idle else .fetch) := by
  have hnum : t.pc.toNat = s.pc.toNat + 1 := by
    rw [ht]
    bv_omega
  unfold continueRun
  rw [memSize_eq, hnum]
  by_cases h15 : s.pc.toNat = 15
  · rw [if_neg (by omega), if_pos h15]
  · rw [if_pos (by omega), if_neg h15]

/-- Settles O11: Fetch puts 0x00 in `ir`, Execute of it only advances `pc`, and the run loop's test ends the run exactly
when that was from 15 (R80). -/
theorem noopOnlyAdvances : Obligations.NoopOnlyAdvances := by
  intro s hpc
  refine ⟨exec_noop s, fun _ hread => ?_⟩
  obtain ⟨-, hop⟩ := Memory.read_eq_some.mp hread
  refine ⟨(s.setIr 0x00).setRunState .execute, hop ▸ fetchOpcode_of_lt hpc, ?_⟩
  calc executeOpcode ((s.setIr 0x00).setRunState .execute)
      = settle (exec .noop ((s.setIr 0x00).setRunState .execute)) := executeOpcode_of_noop hpc rfl
    _ = .next (((s.setIr 0x00).setPc (s.pc + 1)).setRunState (if s.pc.toNat = 15 then .idle else .fetch)) :=
      congrArg Host.Outcome.next (continueRun_of_pc_succ hpc rfl)

end Sys2Proof.Machine
end

section
/-! The encoding (30_encoding): one specification of the decoder, cited by all four statements. -/

namespace Sys2Proof

/-- The row of the opcode table an instruction stands in. -/
def Instr.row : Instr → Row
  | .noop => .noop
  | .load _ _ => .load
  | .add _ _ => .add
  | .sub _ _ => .sub
  | .jump _ => .jump
  | .unknown05 => .unknown05
  | .unknown06 _ => .unknown06
  | .unknown08 _ => .unknown08
  | .unknown10 _ => .unknown10
  | .unknown20 _ => .unknown20
  | .unknown40 _ => .unknown40
  | .unknown80 _ => .unknown80

/-- `Instr.wellFormed` is the match and mask of the instruction's own row. -/
theorem Instr.opcode_inRow {i : Instr} (h : i.wellFormed = true) :
    inRow i.row.maskMatch.1 i.row.maskMatch.2 i.opcode = true := by
  cases i with
  | noop => exact inRow_full.mpr rfl
  | load reg value => exact inRow_full.mpr rfl
  | add reg1 reg2 => exact inRow_full.mpr rfl
  | sub reg1 reg2 => exact inRow_full.mpr rfl
  | jump address => exact inRow_full.mpr rfl
  | unknown05 => exact inRow_full.mpr rfl
  | unknown06 op => exact h
  | unknown08 op => exact h
  | unknown10 op => exact h
  | unknown20 op => exact h
  | unknown40 op => exact h
  | unknown80 op => exact h

theorem Row.ofOpcode_opcode {i : Instr} (h : i.wellFormed = true) : Row.ofOpcode i.opcode = i.row :=
  Row.ofOpcode_of_matches i.row (Instr.opcode_inRow h)

theorem decodeFrom_opcode_operands {i : Instr} (h : i.wellFormed = true) (rest : List Byte) :
    decodeFrom i.opcode (i.operands ++ rest) = .ok (i, rest) := by
  unfold decodeFrom
  rw [Row.ofOpcode_opcode h]
  cases i <;> rfl

theorem Instr.length_operands (i : Instr) : i.operands.length + 1 = i.length := by
  cases i <;> rfl

/-- What the decoder answers (R50, R51, R58): an instruction of that opcode whose operand bytes were at the head, or, with too
few bytes for the opcode's length, a rejection with that length. -/
theorem decodeFrom_cases (op : Byte) (l : List Byte) :
    (∃ i rest, decodeFrom op l = .ok (i, rest) ∧ i.wellFormed = true ∧ i.opcode = op ∧ i.operands ++ rest = l) ∨
    (l.length + 1 < opcodeLength op ∧ decodeFrom op l = .error ⟨opcodeLength op⟩) := by
  have short (hop : op ∈ [(0x01 : Byte), 0x02, 0x03]) (hlen : opcodeLength op = 3) (hl : l.length < 2) :
      l.length + 1 < opcodeLength op ∧ decodeFrom op l = .error ⟨opcodeLength op⟩ := by
    rw [hlen]
    exact ⟨by omega, decodeFrom_truncated.1 op hop l hl⟩
  rcases opcode_cases op with rfl | rfl | rfl | rfl | rfl | h5
  · exact .inl ⟨.noop, l, rfl, rfl, rfl, rfl⟩
  · match l with
    | [] | [_] => exact .inr (short (by decide) rfl (by simp))
    | reg :: value :: rest => exact .inl ⟨.load reg value, rest, rfl, rfl, rfl, rfl⟩
  · match l with
    | [] | [_] => exact .inr (short (by decide) rfl (by simp))
    | reg1 :: reg2 :: rest => exact .inl ⟨.add reg1 reg2, rest, rfl, rfl, rfl, rfl⟩
  · match l with
    | [] | [_] => exact .inr (short (by decide) rfl (by simp))
    | reg1 :: reg2 :: rest => exact .inl ⟨.sub reg1 reg2, rest, rfl, rfl, rfl, rfl⟩
  · match l with
    | [] => exact .inr ⟨by decide, rfl⟩
    | address :: rest => exact .inl ⟨.jump address, rest, rfl, rfl, rfl, rfl⟩
  · obtain ⟨-, i, hw, ho, hoperands, -, hd⟩ := decodeFrom_unknown h5
    exact .inl ⟨i, l, hd l, hw, ho, by rw [hoperands]; rfl⟩

theorem decodeFrom_eq_ok {op : Byte} {l rest : List Byte} {i : Instr} (h : decodeFrom op l = .ok (i, rest)) :
    i.wellFormed = true ∧ i.opcode = op ∧ i.operands ++ rest = l := by
  rcases decodeFrom_cases op l with ⟨j, rest', hd, hw, ho, hl⟩ | ⟨-, hd⟩ <;> rw [hd] at h
  · cases h
    exact ⟨hw, ho, hl⟩
  · cases h

/-- The length by R51's table, over the number of the opcode. -/
theorem opcodeLength_eq (op : Byte) :
    opcodeLength op = if op.toNat = 0x04 then 2 else if 0x01 ≤ op.toNat ∧ op.toNat ≤ 0x03 then 3 else 1 := by
  rcases opcode_cases op with rfl | rfl | rfl | rfl | rfl | h5
  · rfl
  · rfl
  · rfl
  · rfl
  · rfl
  · rw [(decodeFrom_unknown h5).1, if_neg (by omega), if_neg (by omega)]

/-- Settles O1: a well-formed instruction's opcode selects the instruction's own row, and the row takes its operands. -/
theorem decodeOfEncodeIsTheInstruction : Obligations.DecodeOfEncodeIsTheInstruction := by
  intro i rest h
  exact decode_cons_ok.mpr (decodeFrom_opcode_operands h rest)

/-- Settles O2: the decoder's accepting case, read backwards. -/
theorem decodedBytesEncodeBack : Obligations.DecodedBytesEncodeBack := by
  intro bytes rest i h
  cases bytes with
  | nil => cases h
  | cons op operands =>
    obtain ⟨hw, ho, hl⟩ := decodeFrom_eq_ok (decode_cons_ok.mp h)
    refine ⟨hw, ?_⟩
    rw [encode, List.cons_append, ho, hl]

/-- Settles O3: the two cases of the decoder are told apart by the number of bytes against the opcode's length. -/
theorem opcodeAloneDecidesLength : Obligations.OpcodeAloneDecidesLength := by
  intro op operands
  dsimp only
  rw [← opcodeLength_eq]
  rcases decodeFrom_cases op operands with ⟨i, rest, hd, hw, ho, hl⟩ | ⟨hlt, hd⟩
  · have hlen : opcodeLength op = i.operands.length + 1 := by
      rw [← ho, opcodeLength_opcode hw, Instr.length_operands]
    have hfits : opcodeLength op ≤ operands.length + 1 := by
      rw [hlen, ← hl, List.length_append]
      omega
    have hdrop : operands.drop (opcodeLength op - 1) = rest := by
      rw [hlen, ← hl, Nat.add_sub_cancel, List.drop_left]
    rw [if_pos hfits, hdrop]
    exact ⟨i, decode_cons_ok.mpr hd, ho⟩
  · rw [if_neg (by omega)]
    exact decode_cons_error.mpr hd

/-- Settles O4: each word evaluated by the decoder. -/
theorem wordsOfTheOpcodeMapDecode : Obligations.WordsOfTheOpcodeMapDecode :=
  ⟨rfl, rfl, rfl, rfl, rfl, rfl, rfl, rfl⟩

end Sys2Proof
end

section
/-! Read after write (20_memory R30). -/

namespace Sys2Proof.Machine

theorem Memory.read_insert_other (m : Memory) {a b : Nat} (v : Byte) (h : b ≠ a) :
    Memory.read b (Memory.insert a v m) = Memory.read b m := by
  unfold Memory.read
  rw [Memory.lookup_insert_other m v h]

/-- Settles O5: the write is `Memory.insert`, whose laws these are. -/
theorem writeThenReadReturnsTheByte : Obligations.WriteThenReadReturnsTheByte := by
  intro m a v hm ha
  exact ⟨Memory.insert a v m, Memory.write_of_lt v m ha, Memory.wf_insert v hm ha, Memory.read_insert_same v hm ha,
    fun b hb => Memory.read_insert_other m v hb⟩

end Sys2Proof.Machine
end

section
/-! What each instruction does, one equation per case of its rule (41 to 44). -/

namespace Sys2Proof.Machine

variable {s : State}

/-! ### LOAD -/

theorem exec_load_of_outside (reg value : Byte) (hpc : 14 ≤ s.pc.toNat) :
    exec (.load reg value) s = .next (s.abandon 3) :=
  congrArg Host.Outcome.next (State.ifFetched_of_gt _ (by omega))

theorem exec_load_of_valid {reg : Byte} {r : Fin 4} (value : Byte) (hpc : s.pc.toNat ≤ 13) (hr : reg.toNat = r.val) :
    exec (.load reg value) s = .next ((s.setReg r value).advance 3) := by
  rcases execLoad_cases reg value s with ⟨hgt, -⟩ | ⟨r', hr', h⟩ | ⟨hge, -⟩
  · omega
  · rw [Fin.ext (hr.symm.trans hr')]
    exact h
  · exact absurd r.isLt (by omega)

theorem exec_load_of_invalid {reg : Byte} (value : Byte) (hpc : s.pc.toNat ≤ 13) (hr : 4 ≤ reg.toNat) :
    exec (.load reg value) s = .next ((s.raise .invalidRegister reg).advance 3) := by
  rcases execLoad_cases reg value s with ⟨hgt, -⟩ | ⟨r', hr', -⟩ | ⟨-, h⟩
  · omega
  · exact absurd r'.isLt (by omega)
  · exact h

/-! ### ADD and SUB -/

theorem arithmetic_of_outside (f : Byte → Byte → Byte) (reg1 reg2 : Byte) (hpc : 14 ≤ s.pc.toNat) :
    arithmetic f reg1 reg2 s = s.abandon 3 :=
  State.ifFetched_of_gt _ (by omega)

theorem arithmetic_of_valid (f : Byte → Byte → Byte) {reg1 reg2 : Byte} {r1 r2 : Fin 4} (hpc : s.pc.toNat ≤ 13)
    (h1 : reg1.toNat = r1.val) (h2 : reg2.toNat = r2.val) :
    arithmetic f reg1 reg2 s = (s.combine f r1 r2).advance 3 := by
  unfold arithmetic
  rw [State.ifFetched_of_le _ (by omega), registerOperands_ok h1 h2]

/-- The first index of ADD or SUB that names no register is `bad` (R94). -/
def FirstInvalid (reg1 reg2 bad : Byte) : Prop :=
  (4 ≤ reg1.toNat ∧ bad = reg1) ∨ (reg1.toNat < 4 ∧ 4 ≤ reg2.toNat ∧ bad = reg2)

theorem FirstInvalid.unique {reg1 reg2 b c : Byte} (hb : FirstInvalid reg1 reg2 b) (hc : FirstInvalid reg1 reg2 c) :
    b = c := by
  rcases hb with ⟨hb1, hb⟩ | ⟨hb1, -, hb⟩ <;> rcases hc with ⟨hc1, hc⟩ | ⟨hc1, -, hc⟩
  · exact hb.trans hc.symm
  · omega
  · omega
  · exact hb.trans hc.symm

theorem FirstInvalid.not_both_valid {reg1 reg2 bad : Byte} (h : FirstInvalid reg1 reg2 bad) :
    ¬ (reg1.toNat < 4 ∧ reg2.toNat < 4) := by
  unfold FirstInvalid at h
  omega

theorem arithmetic_of_invalid (f : Byte → Byte → Byte) {reg1 reg2 bad : Byte} (hpc : s.pc.toNat ≤ 13)
    (hbad : FirstInvalid reg1 reg2 bad) :
    arithmetic f reg1 reg2 s = (s.raise .invalidRegister bad).advance 3 := by
  rcases arithmetic_cases f reg1 reg2 s with ⟨hgt, -⟩ | ⟨r1, r2, h1, h2, -⟩ | ⟨bad', hbad', h⟩
  · omega
  · exact absurd ⟨h1 ▸ r1.isLt, h2 ▸ r2.isLt⟩ hbad.not_both_valid
  · rw [hbad.unique hbad', h]

/-! ### JUMP -/

theorem exec_jump_of_outside (address : Byte) (hpc : 15 ≤ s.pc.toNat) :
    exec (.jump address) s = .next (s.abandon 2) :=
  congrArg Host.Outcome.next (State.ifFetched_of_gt _ (by omega))

theorem exec_jump_of_valid {address : Byte} (hpc : s.pc.toNat ≤ 14) (ha : address.toNat < 16) :
    exec (.jump address) s = .next (s.setPc address) := by
  rcases execJump_cases address s with ⟨hgt, -⟩ | ⟨-, -, h⟩ | ⟨-, hge, -⟩
  · omega
  · exact h
  · omega

theorem exec_jump_of_invalid {address : Byte} (hpc : s.pc.toNat ≤ 14) (ha : 16 ≤ address.toNat) :
    exec (.jump address) s = .next (s.raise .invalidAddress address) := by
  rcases execJump_cases address s with ⟨hgt, -⟩ | ⟨-, hlt, -⟩ | ⟨-, -, h⟩
  · omega
  · omega
  · exact h

/-! ### The unknown opcodes -/

theorem exec_of_unknown {op : Byte} {i : Instr}
    (h : i ∈ [Instr.unknown05, .unknown06 op, .unknown08 op, .unknown10 op, .unknown20 op, .unknown40 op,
      .unknown80 op]) : exec i s = .next (reportUnknown i.opcode s) := by
  simp only [List.mem_cons, List.not_mem_nil, or_false] at h
  rcases h with rfl | rfl | rfl | rfl | rfl | rfl | rfl <;> rfl

/-! ### The result and its flags as numbers -/

theorem flagsOf_eq_ite_toNat (v : Byte) : flagsOf v = if v.toNat = 0 then 0x01 else 0x00 := by
  have hzero : v = 0 ↔ v.toNat = 0 := BitVec.toNat_eq
  simp only [flagsOf, hzero]

theorem byte_toNat_add (a b : Byte) : (a + b).toNat = (a.toNat + b.toNat) % 256 := BitVec.toNat_add a b

theorem byte_toNat_sub (a b : Byte) :
    (a - b).toNat = if b.toNat ≤ a.toNat then a.toNat - b.toNat else a.toNat + 256 - b.toNat := by
  split <;> bv_omega

theorem flagsOf_sub (a b : Byte) : flagsOf (a - b) = if a = b then 0x01 else 0x00 := by
  have hzero : a - b = 0 ↔ a = b := sub_eq_zero
  simp only [flagsOf, hzero]

end Sys2Proof.Machine
end

section
/-! The instructions' statements (41 to 44). -/

namespace Sys2Proof.Machine

/-- Settles O12: LOAD's valid case, and the register file after one write (R85). -/
theorem loadWritesOneRegister : Obligations.LoadWritesOneRegister := by
  intro s reg value r hpc hr
  exact ⟨(s.setReg r value).advance 3, exec_load_of_valid value hpc hr, rfl, RegFile.get_set_same s.regs r value,
    fun q hq => RegFile.get_set_other s.regs value hq⟩

/-- Settles O13: LOAD's invalid case (R85). -/
theorem loadRefusesInvalidIndex : Obligations.LoadRefusesInvalidIndex :=
  fun _ _ value hpc hr => exec_load_of_invalid value hpc hr

/-- Settles O14: the shared update with the sum, read as a number (R90). -/
theorem addOfTwoRegisters : Obligations.AddOfTwoRegisters := by
  intro s reg1 reg2 r1 r2 hpc h1 h2 hne
  obtain ⟨hzero, hresult, hother, hflags, -⟩ := State.combine_spec s (fun a b => a + b) r1 r2
  refine ⟨(s.combine (fun a b => a + b) r1 r2).advance 3,
    congrArg Host.Outcome.next (arithmetic_of_valid _ hpc h1 h2), rfl, ?_, hzero, hother, ?_⟩
  · rw [State.advance_regs, hresult hne, byte_toNat_add]
  · rw [State.advance_flags, hflags, flagsOf_eq_ite_toNat, byte_toNat_add]

/-- Settles O15: the shared update with the difference, read as a number (R91). -/
theorem subOfTwoRegisters : Obligations.SubOfTwoRegisters := by
  intro s reg1 reg2 r1 r2 hpc h1 h2 hne
  obtain ⟨hzero, hresult, hother, hflags, -⟩ := State.combine_spec s (fun a b => a - b) r1 r2
  refine ⟨(s.combine (fun a b => a - b) r1 r2).advance 3,
    congrArg Host.Outcome.next (arithmetic_of_valid _ hpc h1 h2), rfl, ?_, hzero, hother, ?_⟩
  · rw [State.advance_regs, hresult hne, byte_toNat_sub]
  · rw [State.advance_flags, hflags, flagsOf_sub]

/-- Settles O16: of the shared update's two writes to the register the last, of zero, stays (R93). -/
theorem sameRegisterEndsZero : Obligations.SameRegisterEndsZero := by
  intro s reg r hpc hr
  constructor
  · obtain ⟨hzero, -, hother, hflags, -⟩ := State.combine_spec s (fun a b => a + b) r r
    refine ⟨(s.combine (fun a b => a + b) r r).advance 3,
      congrArg Host.Outcome.next (arithmetic_of_valid _ hpc hr hr), rfl, hzero, fun q hq => hother q hq hq, ?_⟩
    rw [State.advance_flags, hflags, flagsOf_eq_ite_toNat, byte_toNat_add, ← two_mul]
  · obtain ⟨hzero, -, hother, hflags, hframe⟩ := State.combine_spec s (fun a b => a - b) r r
    refine ⟨(s.combine (fun a b => a - b) r r).advance 3,
      congrArg Host.Outcome.next (arithmetic_of_valid _ hpc hr hr), ?_, hzero, fun q hq => hother q hq hq⟩
    have hone : (s.combine (fun a b => a - b) r r).flags = 0x01 := by rw [hflags, flagsOf_sub, if_pos rfl]
    rw [← hone]
    rfl

/-- Settles O17: the invalid case that ADD and SUB share (R94). -/
theorem arithmeticRefusesInvalidIndex : Obligations.ArithmeticRefusesInvalidIndex :=
  fun _ _ _ _ hpc hbad => ⟨congrArg Host.Outcome.next (arithmetic_of_invalid _ hpc hbad),
    congrArg Host.Outcome.next (arithmetic_of_invalid _ hpc hbad)⟩

/-- Settles O18: all four instructions are abandoned by their length, before an operand is looked at (R71). -/
theorem operandsOutsideMemoryAbandon : Obligations.OperandsOutsideMemoryAbandon := by
  intro s b1 b2
  constructor
  · intro hpc i hi
    have hge : 14 ≤ s.pc.toNat := by omega
    simp only [List.mem_cons, List.not_mem_nil, or_false] at hi
    rcases hi with rfl | rfl | rfl
    · exact exec_load_of_outside b1 b2 hge
    · exact congrArg Host.Outcome.next (arithmetic_of_outside _ b1 b2 hge)
    · exact congrArg Host.Outcome.next (arithmetic_of_outside _ b1 b2 hge)
  · intro hpc
    have h17 : s.pc + BitVec.ofNat 8 2 = 17 := by bv_omega
    rw [exec_jump_of_outside b1 (by omega), State.abandon_eq, h17]

/-- Settles O19: JUMP's valid case (R100). -/
theorem jumpTakesValidTarget : Obligations.JumpTakesValidTarget :=
  fun _ _ hpc ha => exec_jump_of_valid hpc ha

/-- Settles O20: JUMP's invalid case (R100). -/
theorem jumpRefusesInvalidTarget : Obligations.JumpRefusesInvalidTarget :=
  fun _ _ hpc ha => exec_jump_of_invalid hpc ha

/-- Settles O21: the seven rows share one meaning, which reports the instruction's own opcode (R81). -/
theorem unknownOpcodeIsReportedAndSkipped : Obligations.UnknownOpcodeIsReportedAndSkipped := by
  intro s op _ i hi _
  rw [exec_of_unknown hi, reportUnknown_eq]

end Sys2Proof.Machine
end

section
/-! The frames of the instructions (10_state R11, R15). -/

namespace Sys2Proof.Machine

variable {s t : State}

/-! ### What no instruction touches -/

theorem exec_next_effect {i : Instr} (h : exec i s = .next t) : InstrEffect s t := by
  obtain ⟨t', ht', heffect⟩ := exec_effect i s
  rw [ht'] at h
  cases h
  exact heffect

theorem InstrEffect.runState_eq (h : InstrEffect s t) : t.runState = s.runState := by
  obtain ⟨new, ht, -, -⟩ := h
  rw [ht]

theorem InstrEffect.hostIn_eq (h : InstrEffect s t) : t.hostIn = s.hostIn := by
  obtain ⟨new, ht, -, -⟩ := h
  rw [ht]

theorem InstrEffect.responses_eq (h : InstrEffect s t) : t.responses = s.responses := by
  obtain ⟨new, ht, -, -⟩ := h
  rw [ht]

theorem InstrEffect.read_eq (h : InstrEffect s t) (a : Nat) : Memory.read a t.mem = Memory.read a s.mem := by
  rw [h.mem_eq]

/-! ### Registers and flags -/

theorem exec_jump_keeps_regs_flags {address : Byte} (h : exec (.jump address) s = .next t) :
    t.regs = s.regs ∧ t.flags = s.flags := by
  rcases execJump_cases address s with ⟨-, he⟩ | ⟨-, -, he⟩ | ⟨-, -, he⟩ <;> cases he.symm.trans h <;> exact ⟨rfl, rfl⟩

theorem exec_keeps_regs_flags {op address : Byte} {i : Instr}
    (hi : i ∈ [Instr.noop, .jump address, .unknown05, .unknown06 op, .unknown08 op, .unknown10 op, .unknown20 op,
      .unknown40 op, .unknown80 op]) (h : exec i s = .next t) : t.regs = s.regs ∧ t.flags = s.flags := by
  rcases List.mem_cons.mp hi with rfl | hi
  · cases h
    exact ⟨rfl, rfl⟩
  rcases List.mem_cons.mp hi with rfl | hi
  · exact exec_jump_keeps_regs_flags h
  · cases (exec_of_unknown hi).symm.trans h
    exact ⟨rfl, rfl⟩

theorem exec_load_regs_flags {reg value : Byte} (h : exec (.load reg value) s = .next t) :
    (∀ q : Fin 4, q.val ≠ reg.toNat → t.regs.get q = s.regs.get q) ∧ t.flags = s.flags := by
  rcases execLoad_cases reg value s with ⟨-, he⟩ | ⟨r, hr, he⟩ | ⟨-, he⟩ <;> cases he.symm.trans h
  · exact ⟨fun _ _ => rfl, rfl⟩
  · exact ⟨fun q hq => RegFile.get_set_other _ _ fun hqr => hq (hqr ▸ hr.symm), rfl⟩
  · exact ⟨fun _ _ => rfl, rfl⟩

theorem arithmetic_regs_flags (f : Byte → Byte → Byte) (reg1 reg2 : Byte) (s : State) :
    (∀ q : Fin 4, q.val ≠ reg1.toNat → q.val ≠ reg2.toNat →
      (arithmetic f reg1 reg2 s).regs.get q = s.regs.get q) ∧
    ((arithmetic f reg1 reg2 s).flags = 0x00 ∨ (arithmetic f reg1 reg2 s).flags = 0x01 ∨
      (arithmetic f reg1 reg2 s).flags = s.flags) ∧
    (4 ≤ reg1.toNat ∨ 4 ≤ reg2.toNat →
      (arithmetic f reg1 reg2 s).flags = s.flags ∧ ∀ q, (arithmetic f reg1 reg2 s).regs.get q = s.regs.get q) := by
  rcases arithmetic_cases f reg1 reg2 s with ⟨-, h⟩ | ⟨r1, r2, h1, h2, h⟩ | ⟨bad, -, h⟩ <;> rw [h]
  · exact ⟨fun _ _ _ => rfl, .inr (.inr rfl), fun _ => ⟨rfl, fun _ => rfl⟩⟩
  · obtain ⟨-, -, hother, hflags, -⟩ := State.combine_spec s f r1 r2
    refine ⟨fun q hq1 hq2 => hother q (fun hq => hq1 (hq ▸ h1.symm)) (fun hq => hq2 (hq ▸ h2.symm)), ?_, ?_⟩
    · rw [State.advance_flags, hflags]
      exact (flagsOf_cases _).imp_right .inl
    · have := r1.isLt
      have := r2.isLt
      omega
  · exact ⟨fun _ _ _ => rfl, .inr (.inr rfl), fun _ => ⟨rfl, fun _ => rfl⟩⟩

/-- Settles O22: the nine instructions keep registers and flags, and no instruction touches the rest. -/
theorem noRegisterFormsFrame : Obligations.NoRegisterFormsFrame := by
  intro s t op address i hi h
  obtain ⟨hregs, hflags⟩ := exec_keeps_regs_flags hi h
  have heffect := exec_next_effect h
  exact ⟨fun q => by rw [hregs], hflags, heffect.ir_eq, heffect.runState_eq, heffect.read_eq, heffect.hostIn_eq,
    heffect.responses_eq⟩

/-- Settles O23: LOAD's cases for registers and flags, and no instruction touches the rest. -/
theorem loadFrame : Obligations.LoadFrame := by
  intro s t reg value h
  obtain ⟨hregs, hflags⟩ := exec_load_regs_flags h
  have heffect := exec_next_effect h
  exact ⟨hregs, hflags, heffect.ir_eq, heffect.runState_eq, heffect.read_eq, heffect.hostIn_eq,
    heffect.responses_eq⟩

/-- Settles O24: the cases ADD and SUB share for registers and flags, and no instruction touches the rest. -/
theorem arithmeticFrame : Obligations.ArithmeticFrame := by
  intro s t reg1 reg2 i hi h
  have heffect := exec_next_effect h
  have hshared : ∃ f, t = arithmetic f reg1 reg2 s := by
    simp only [List.mem_cons, List.not_mem_nil, or_false] at hi
    rcases hi with rfl | rfl <;> cases h <;> exact ⟨_, rfl⟩
  obtain ⟨f, rfl⟩ := hshared
  obtain ⟨hregs, hflags, hinvalid⟩ := arithmetic_regs_flags f reg1 reg2 s
  exact ⟨hregs, hflags, hinvalid, heffect.ir_eq, heffect.runState_eq, heffect.read_eq, heffect.hostIn_eq,
    heffect.responses_eq⟩

end Sys2Proof.Machine
end

section
/-! An instruction's effect as one of four actions, chosen by `pc` and the instruction alone. That the choice looks at
nothing else is what the statements on independence (10_state R15, 40_cycle R75) turn on. -/

namespace Sys2Proof.Machine

/-- The four things Execute can do, each ending with `pc` at `target`. -/
inductive Action where
  /-- Move on. -/
  | move (target : Byte)
  /-- Load a register (R85). -/
  | load (r : Fin 4) (value target : Byte)
  /-- Update two registers and `flags` (R90, R91). -/
  | combine (f : Byte → Byte → Byte) (r1 r2 : Fin 4) (target : Byte)
  /-- Report a diagnostic. -/
  | report (d : Diagnostic) (info target : Byte)

namespace Action

def target : Action → Byte
  | .move target | .load _ _ target | .combine _ _ _ target | .report _ _ target => target

def apply : Action → State → State
  | .move target, s => s.setPc target
  | .load r value target, s => (s.setReg r value).setPc target
  | .combine f r1 r2 target, s => (s.combine f r1 r2).setPc target
  | .report d info target, s => (s.raise d info).setPc target

/-- What the action reports when it is that of the instruction at `pc`. -/
def reports : Action → Byte → List Event
  | .report d info _, pc => [⟨d, pc, info⟩]
  | .move _, _ | .load _ _ _, _ | .combine _ _ _ _, _ => []

variable (a : Action) (s : State)

@[simp] theorem apply_pc : (a.apply s).pc = a.target := by cases a <;> rfl
@[simp] theorem apply_mem : (a.apply s).mem = s.mem := by cases a <;> rfl
@[simp] theorem apply_ir : (a.apply s).ir = s.ir := by cases a <;> rfl
@[simp] theorem apply_hostIn : (a.apply s).hostIn = s.hostIn := by cases a <;> rfl
@[simp] theorem apply_responses : (a.apply s).responses = s.responses := by cases a <;> rfl

theorem apply_flags_cases : (a.apply s).flags = 0x00 ∨ (a.apply s).flags = 0x01 ∨ (a.apply s).flags = s.flags := by
  cases a with
  | move target => exact .inr (.inr rfl)
  | load r value target => exact .inr (.inr rfl)
  | combine f r1 r2 target => exact (flagsOf_cases _).imp_right .inl
  | report d info target => exact .inr (.inr rfl)

/-- An action adds its report to whatever was reported before, and depends on nothing reported before. -/
theorem apply_with_events (before : List Event) :
    a.apply { s with events := before } = { a.apply s with events := before ++ a.reports s.pc } := by
  cases a with
  | move target => rw [reports, List.append_nil]; rfl
  | load r value target => rw [reports, List.append_nil]; rfl
  | combine f r1 r2 target => rw [reports, List.append_nil]; rfl
  | report d info target => rfl

/-- An action changes no more than registers, `flags` and `pc`, and adds its report. -/
theorem apply_frame :
    a.apply s = { s with
      regs := (a.apply s).regs, flags := (a.apply s).flags, pc := a.target
      events := s.events ++ a.reports s.pc } := by
  cases a with
  | move target => rw [reports, List.append_nil]; rfl
  | load r value target => rw [reports, List.append_nil]; rfl
  | combine f r1 r2 target => rw [reports, List.append_nil]; rfl
  | report d info target => rfl

@[simp] theorem apply_events : (a.apply s).events = s.events ++ a.reports s.pc :=
  congrArg State.events (a.apply_with_events s s.events)

/-- An action does not depend on `flags`: it writes them from the registers, or carries them along. -/
theorem apply_with_flags (f : Byte) :
    a.apply { s with flags := f } = a.apply s ∨
    (a.apply { s with flags := f } = { a.apply s with flags := f } ∧ (a.apply s).flags = s.flags) := by
  cases a with
  | move target => exact .inr ⟨rfl, rfl⟩
  | load r value target => exact .inr ⟨rfl, rfl⟩
  | combine g r1 r2 target => exact .inl rfl
  | report d info target => exact .inr ⟨rfl, rfl⟩

theorem reports_length (pc : Byte) : (a.reports pc).length ≤ 1 := by
  cases a <;> simp [reports]

theorem origin_of_mem_reports {pc : Byte} {e : Event} (h : e ∈ a.reports pc) : e.origin = pc := by
  cases a with
  | move target => cases h
  | load r value target => cases h
  | combine f r1 r2 target => cases h
  | report d info target => rw [List.mem_singleton.mp h]

end Action

/-- From every state at `pc` the meaning `m` is the action `a`, which from below 16 goes no further than 18 (R17). -/
def ActsAt (pc : Byte) (m : State → Host.Outcome State Fault Refusal) (a : Action) : Prop :=
  (pc.toNat < 16 → a.target.toNat ≤ 18) ∧ ∀ s, s.pc = pc → m s = .next (a.apply s)

/-- A move by at most 3 from below 16 ends at 18 at most. -/
theorem advance_le {pc : Byte} {n : Nat} (hn : n ≤ 3) (h : pc.toNat < 16) :
    (pc + BitVec.ofNat 8 n).toNat ≤ 18 := by
  rw [BitVec.toNat_add, BitVec.toNat_ofNat]
  omega

theorem exec_load_action (reg value pc : Byte) : ∃ a, ActsAt pc (exec (.load reg value)) a := by
  by_cases hpc : 14 ≤ pc.toNat
  · exact ⟨.report .invalidAddress 16 (pc + 3), advance_le le_rfl, by
      rintro s rfl
      exact exec_load_of_outside reg value hpc⟩
  by_cases hr : reg.toNat < 4
  · exact ⟨.load ⟨reg.toNat, hr⟩ value (pc + 3), advance_le le_rfl, by
      rintro s rfl
      exact exec_load_of_valid value (by omega) rfl⟩
  · exact ⟨.report .invalidRegister reg (pc + 3), advance_le le_rfl, by
      rintro s rfl
      exact exec_load_of_invalid value (by omega) (by omega)⟩

theorem arithmetic_action (f : Byte → Byte → Byte) (reg1 reg2 pc : Byte) :
    ∃ a, ActsAt pc (fun s => .next (arithmetic f reg1 reg2 s)) a := by
  by_cases hpc : 14 ≤ pc.toNat
  · exact ⟨.report .invalidAddress 16 (pc + 3), advance_le le_rfl, by
      rintro s rfl
      exact congrArg Host.Outcome.next (arithmetic_of_outside f reg1 reg2 hpc)⟩
  rcases registerOperands_cases reg1 reg2 with ⟨r1, r2, h1, h2, -⟩ | ⟨h1, -⟩ | ⟨h1, h2, -⟩
  · exact ⟨.combine f r1 r2 (pc + 3), advance_le le_rfl, by
      rintro s rfl
      exact congrArg Host.Outcome.next (arithmetic_of_valid f (by omega) h1 h2)⟩
  · exact ⟨.report .invalidRegister reg1 (pc + 3), advance_le le_rfl, by
      rintro s rfl
      exact congrArg Host.Outcome.next (arithmetic_of_invalid f (by omega) (.inl ⟨h1, rfl⟩))⟩
  · exact ⟨.report .invalidRegister reg2 (pc + 3), advance_le le_rfl, by
      rintro s rfl
      exact congrArg Host.Outcome.next (arithmetic_of_invalid f (by omega) (.inr ⟨h1, h2, rfl⟩))⟩

theorem exec_jump_action (address pc : Byte) : ∃ a, ActsAt pc (exec (.jump address)) a := by
  by_cases hpc : 15 ≤ pc.toNat
  · exact ⟨.report .invalidAddress 16 (pc + 2), advance_le (by decide), by
      rintro s rfl
      exact exec_jump_of_outside address hpc⟩
  by_cases ha : address.toNat < 16
  · refine ⟨.move address, fun _ => ?_, by
      rintro s rfl
      exact exec_jump_of_valid (by omega) ha⟩
    show address.toNat ≤ 18
    omega
  · refine ⟨.report .invalidAddress address pc, fun _ => ?_, by
      rintro s rfl
      exact exec_jump_of_invalid (by omega) (by omega)⟩
    show pc.toNat ≤ 18
    omega

theorem reportUnknown_action (op pc : Byte) : ∃ a, ActsAt pc (fun s => .next (reportUnknown op s)) a :=
  ⟨.report .unknownInstruction op (pc + 1), advance_le (by decide), by rintro s rfl; rfl⟩

theorem exec_action (i : Instr) (pc : Byte) : ∃ a, ActsAt pc (exec i) a := by
  cases i with
  | noop => exact ⟨.move (pc + 1), advance_le (by decide), by rintro s rfl; rfl⟩
  | load reg value => exact exec_load_action reg value pc
  | add reg1 reg2 => exact arithmetic_action _ reg1 reg2 pc
  | sub reg1 reg2 => exact arithmetic_action _ reg1 reg2 pc
  | jump address => exact exec_jump_action address pc
  | unknown05 => exact reportUnknown_action 0x05 pc
  | unknown06 op => exact reportUnknown_action op pc
  | unknown08 op => exact reportUnknown_action op pc
  | unknown10 op => exact reportUnknown_action op pc
  | unknown20 op => exact reportUnknown_action op pc
  | unknown40 op => exact reportUnknown_action op pc
  | unknown80 op => exact reportUnknown_action op pc

/-- Settles O25: the action is chosen without `flags`, and no action reads them (R15). -/
theorem noInstructionReadsFlags : Obligations.NoInstructionReadsFlags := by
  intro i s t f h
  obtain ⟨a, -, ha⟩ := exec_action i s.pc
  cases (ha s rfl).symm.trans h
  rw [ha { s with flags := f } rfl]
  exact (a.apply_with_flags s f).imp (congrArg Host.Outcome.next) fun ⟨h1, h2⟩ => ⟨congrArg Host.Outcome.next h1, h2⟩

end Sys2Proof.Machine
end

section
/-! What a step can do (40_cycle R65 to R69, 70_reset_and_hazards R142): one inversion lemma, from which the statements
about every step follow. -/

namespace Sys2Proof.Machine

variable {s t : State}

/-! ### The end of Execute -/

section
variable (s)

@[simp] theorem continueRun_mem : (continueRun s).mem = s.mem := rfl
@[simp] theorem continueRun_flags : (continueRun s).flags = s.flags := rfl
@[simp] theorem continueRun_pc : (continueRun s).pc = s.pc := rfl
@[simp] theorem continueRun_ir : (continueRun s).ir = s.ir := rfl
@[simp] theorem continueRun_hostIn : (continueRun s).hostIn = s.hostIn := rfl
@[simp] theorem continueRun_events : (continueRun s).events = s.events := rfl
@[simp] theorem continueRun_responses : (continueRun s).responses = s.responses := rfl
@[simp] theorem continueRun_runState :
    (continueRun s).runState = if s.pc.toNat < 16 then .fetch else .idle := rfl

end

theorem continueRun_of_lt (h : s.pc.toNat < 16) : continueRun s = s.setRunState .fetch := by
  unfold continueRun
  rw [if_pos h]

theorem continueRun_of_ge (h : 16 ≤ s.pc.toNat) : continueRun s = s.setRunState .idle := by
  unfold continueRun
  rw [if_neg (Nat.not_lt.mpr h)]

theorem continueRun_ne_execute : (continueRun s).runState ≠ .execute := by
  rw [continueRun_runState]
  split <;> decide

theorem settle_eq_next {o : Host.Outcome State Fault Refusal} (h : settle o = .next t) :
    ∃ u, o = .next u ∧ t = continueRun u := by
  cases o with
  | next u =>
    cases h
    exact ⟨u, rfl, rfl⟩
  | fault f => cases h
  | refused r => cases h

/-! ### Execute -/

theorem opcodeLength_le (op : Byte) : opcodeLength op ≤ 3 := by
  rw [opcodeLength_eq]
  split
  · decide
  · split <;> decide

/-- Execute is one action and then the run loop's test, and only `pc`, `ir` and memory choose the action (R67). -/
theorem executeOpcode_action {pc : Byte} (hpc : pc.toNat < 16) (ir : Byte) (m : Memory) :
    ∃ a : Action, a.target.toNat ≤ 18 ∧
      ∀ s : State, s.pc = pc → s.ir = ir → s.mem = m → executeOpcode s = .next (continueRun (a.apply s)) := by
  cases hd : decodeFrom ir (Memory.bytesFrom (pc.toNat + 1) (opcodeLength ir - 1) m) with
  | ok r =>
    obtain ⟨a, hle, ha⟩ := exec_action r.1 pc
    refine ⟨a, hle hpc, ?_⟩
    rintro s rfl rfl rfl
    rw [executeOpcode_ok hpc hd, ha s rfl, settle]
  | error e =>
    have hlen : e.length ≤ 3 := by
      rcases decodeFrom_cases ir (Memory.bytesFrom (pc.toNat + 1) (opcodeLength ir - 1) m) with
        ⟨i, rest, hd', -⟩ | ⟨-, hd'⟩ <;> cases hd'.symm.trans hd
      exact opcodeLength_le ir
    refine ⟨.report .invalidAddress 16 (pc + BitVec.ofNat 8 e.length), advance_le hlen hpc, ?_⟩
    rintro s rfl rfl rfl
    exact executeOpcode_truncated hpc hd

/-! ### A step of a run -/

/-- The state on which a step of a run in progress executes: the host's action consumed, and Fetch done unless it was
already (R66). -/
def State.atExecute (s : State) : State :=
  { s with
    ir := if s.runState = .fetch then Memory.lookup s.pc.toNat s.mem else s.ir
    runState := .execute
    hostIn := s.hostIn.tail }

section
variable (s)

@[simp] theorem State.atExecute_mem : s.atExecute.mem = s.mem := rfl
@[simp] theorem State.atExecute_flags : s.atExecute.flags = s.flags := rfl
@[simp] theorem State.atExecute_pc : s.atExecute.pc = s.pc := rfl
@[simp] theorem State.atExecute_hostIn : s.atExecute.hostIn = s.hostIn.tail := rfl
@[simp] theorem State.atExecute_events : s.atExecute.events = s.events := rfl
@[simp] theorem State.atExecute_responses : s.atExecute.responses = s.responses := rfl

end

theorem State.atExecute_of_fetch {op : Byte} (hr : s.runState = .fetch)
    (hop : Memory.read s.pc.toNat s.mem = some op) :
    s.atExecute = { s with ir := op, runState := .execute, hostIn := s.hostIn.tail } := by
  obtain ⟨-, hlookup⟩ := Memory.read_eq_some.mp hop
  simp only [State.atExecute, if_pos hr, hlookup]

theorem step_running (hin : s.input ≠ .rst) (hr : s.runState ≠ .idle) (hpc : s.pc.toNat < 16) :
    step s = executeOpcode s.atExecute := by
  cases hrs : s.runState with
  | idle => exact absurd hrs hr
  | fetch =>
    rw [step_fetch hin hrs, runOne_of_lt (s := s.dropInput) hpc,
      State.atExecute_of_fetch hrs (Memory.read_of_lt s.mem hpc)]
    rfl
  | execute =>
    have hsame : s.atExecute = s.dropInput := by
      simp only [State.atExecute, hrs, reduceCtorEq, if_false, State.dropInput]
    rw [step_execute hin hrs, hsame]

theorem step_running_action (hin : s.input ≠ .rst) (hr : s.runState ≠ .idle) (hpc : s.pc.toNat < 16) :
    ∃ a : Action, a.target.toNat ≤ 18 ∧ step s = .next (continueRun (a.apply s.atExecute)) := by
  obtain ⟨a, hle, ha⟩ := executeOpcode_action (pc := s.pc) hpc s.atExecute.ir s.mem
  exact ⟨a, hle, (step_running hin hr hpc).trans (ha s.atExecute rfl rfl rfl)⟩

theorem step_running_of_ge (hin : s.input ≠ .rst) (hr : s.runState ≠ .idle) (hpc : 16 ≤ s.pc.toNat) :
    step s = .fault .ranPastMemory := by
  cases hrs : s.runState with
  | idle => exact absurd hrs hr
  | fetch => exact (step_fetch hin hrs).trans (runOne_of_ge (s := s.dropInput) hpc)
  | execute => exact (step_execute hin hrs).trans (executeOpcode_of_ge (s := s.dropInput) hpc)

/-! ### Every step -/

/-- A step answers a next state or is the one fault: a run in progress past the end of memory (log 5). -/
theorem step_next_or_fault (s : State) :
    (∃ t, step s = .next t) ∨
    (s.runState ≠ .idle ∧ 16 ≤ s.pc.toNat ∧ step s = .fault .ranPastMemory) := by
  by_cases hin : s.input = .rst
  · exact .inl ⟨_, step_rst hin⟩
  by_cases hr : s.runState = .idle
  · exact .inl ⟨_, step_idle hin hr⟩
  by_cases hpc : s.pc.toNat < 16
  · obtain ⟨a, -, h⟩ := step_running_action hin hr hpc
    exact .inl ⟨_, h⟩
  · exact .inr ⟨hr, by omega, step_running_of_ge hin hr (by omega)⟩

/-- Everything a step that answers a next state can do: a reset, a host's move while idle, or an action of a run. -/
theorem step_cases (h : step s = .next t) :
    (s.input = .rst ∧ t = s.dropInput.toReset) ∨
    (s.input ≠ .rst ∧ s.runState = .idle ∧ t = idleOne s.input s.dropInput) ∨
    (s.input ≠ .rst ∧ s.runState ≠ .idle ∧ s.pc.toNat < 16 ∧
      ∃ a : Action, a.target.toNat ≤ 18 ∧ t = continueRun (a.apply s.atExecute)) := by
  by_cases hin : s.input = .rst
  · cases (step_rst hin).symm.trans h
    exact .inl ⟨hin, rfl⟩
  by_cases hr : s.runState = .idle
  · cases (step_idle hin hr).symm.trans h
    exact .inr (.inl ⟨hin, hr, rfl⟩)
  by_cases hpc : s.pc.toNat < 16
  · obtain ⟨a, hle, ha⟩ := step_running_action hin hr hpc
    cases ha.symm.trans h
    exact .inr (.inr ⟨hin, hr, hpc, a, hle, rfl⟩)
  · cases (step_running_of_ge hin hr (by omega)).symm.trans h

/-- The third case alone, for a run in progress. -/
theorem step_cases_of_running (hr : s.runState ≠ .idle) (hin : s.input ≠ .rst) (h : step s = .next t) :
    ∃ a : Action, a.target.toNat ≤ 18 ∧ t = continueRun (a.apply s.atExecute) := by
  rcases step_cases h with ⟨hin', -⟩ | ⟨-, hr', -⟩ | ⟨-, -, -, ha⟩
  · exact absurd hin' hin
  · exact absurd hr' hr
  · exact ha

end Sys2Proof.Machine
end

section
/-! The invariant of the legal states (10_state R14, R17, R19, R22; 40_cycle R69). -/

namespace Sys2Proof.Machine

variable {s : State}

/-- Consuming the host's action changes nothing the invariant speaks of. -/
theorem State.Inv.dropInput (h : s.Inv) : s.dropInput.Inv :=
  ⟨h.mem, h.flags, h.pc, h.running, h.opcode, h.origins⟩

theorem State.Inv.respond (h : s.Inv) (st : Status) (d : Option Byte) : (s.respond st d).Inv :=
  ⟨h.mem, h.flags, h.pc, h.running, h.opcode, h.origins⟩

theorem State.Inv.toReset (h : s.Inv) : s.toReset.Inv where
  mem := Memory.wf_reset
  flags := .inl rfl
  pc := Nat.zero_le 18
  running := fun hr => absurd rfl hr
  opcode := fun hr => by cases hr
  origins := h.origins

/-- A store while idle: no run is in progress whose opcode it could change. -/
theorem State.Inv.store (h : s.Inv) (hr : s.runState = .idle) {a : Nat} (v : Byte) (ha : a < 16) :
    (s.setMem (Memory.insert a v s.mem)).Inv where
  mem := Memory.wf_insert v h.mem ha
  flags := h.flags
  pc := h.pc
  running := h.running
  opcode := fun he => by cases hr.symm.trans he
  origins := h.origins

theorem State.Inv.startRun (h : s.Inv) (hpc : s.pc.toNat < 16) : (s.setRunState .fetch).Inv where
  mem := h.mem
  flags := h.flags
  pc := h.pc
  running := fun _ => hpc
  opcode := fun he => by cases he
  origins := h.origins

theorem State.Inv.perform (h : s.Inv) (hr : s.runState = .idle) (c : Command) : (perform c s).Inv := by
  rcases perform_cases c s with ⟨-, he⟩ | ⟨st, d, he⟩ | ⟨a, v, ha, he⟩ | ⟨-, hpc, he⟩ | ⟨-, -, he⟩ <;> rw [he]
  · exact h.toReset.respond _ _
  · exact h.respond st d
  · exact (h.store hr v ha).respond _ _
  · exact h.startRun hpc
  · exact h

theorem State.Inv.idleOne (h : s.Inv) (hr : s.runState = .idle) (input : HostInput) : (idleOne input s).Inv := by
  cases input with
  | quiet => exact h
  | command c => exact h.perform hr c
  | rst => exact h.toReset

/-- An action of the instruction at `pc` below 16 and the run loop's test. -/
theorem State.Inv.act (h : s.Inv) (hpc : s.pc.toNat < 16) {a : Action} (hle : a.target.toNat ≤ 18) :
    (continueRun (a.apply s.atExecute)).Inv where
  mem := by simpa using h.mem
  flags := by
    rcases a.apply_flags_cases s.atExecute with hf | hf | hf <;> rw [continueRun_flags, hf]
    · exact .inl rfl
    · exact .inr rfl
    · exact h.flags
  pc := by simpa using hle
  running := by
    intro hr
    by_contra hge
    exact hr (if_neg hge)
  opcode := fun he => absurd he continueRun_ne_execute
  origins := by
    intro e he
    rw [continueRun_events, Action.apply_events] at he
    rcases List.mem_append.mp he with he | he
    · exact h.origins e he
    · rw [a.origin_of_mem_reports he]
      exact hpc

/-- Settles O34: each of the three kinds of step keeps the invariant. -/
theorem everyStepKeepsTheInvariant : Obligations.EveryStepKeepsTheInvariant := by
  intro s t h hstep
  rcases step_cases hstep with ⟨-, rfl⟩ | ⟨-, hr, rfl⟩ | ⟨-, -, hpc, a, hle, rfl⟩
  · exact h.dropInput.toReset
  · exact h.dropInput.idleOne hr s.input
  · exact h.act hpc hle

/-- Settles O35: the reset state is idle, at 0, with nothing listed and nothing reported. -/
theorem resetMeetsTheInvariant : Obligations.ResetMeetsTheInvariant where
  mem := Memory.wf_reset
  flags := .inl rfl
  pc := Nat.zero_le 18
  running := fun hr => absurd rfl hr
  opcode := fun hr => by cases hr
  origins := fun _ he => by cases he

/-- Settles O36: the one fault needs a run in progress past the end of memory, which the invariant excludes. -/
theorem noStepOfALegalStateStops : Obligations.NoStepOfALegalStateStops := by
  refine ⟨fun s h => ?_, fun s f hf => ?_, fun s r hr => ?_⟩
  · rcases step_next_or_fault s with hnext | ⟨hrun, hpc, -⟩
    · exact hnext
    · exact absurd (h.running hrun) (by omega)
  · rcases step_next_or_fault s with ⟨t, ht⟩ | ⟨hrun, hpc, -⟩
    · cases ht.symm.trans hf
    · exact ⟨hrun, hpc⟩
  · rcases step_next_or_fault s with ⟨t, ht⟩ | ⟨-, -, hfault⟩
    · cases ht.symm.trans hr
    · cases hfault.symm.trans hr

end Sys2Proof.Machine
end

section
/-! The statements about one step of a run (40_cycle sections 3 to 7, 20_memory section 5). -/

namespace Sys2Proof.Machine

variable {s t : State}

/-! ### The bytes at `pc` -/

theorem Memory.take_bytesFrom {k n : Nat} (h : k ≤ n) (a : Nat) (m : Memory) :
    (Memory.bytesFrom a n m).take k = Memory.bytesFrom a k m := by
  induction k generalizing n a with
  | zero => rfl
  | succ k ih =>
    obtain ⟨n, rfl⟩ : ∃ n', n = n' + 1 := ⟨n - 1, by omega⟩
    by_cases ha : a < 16
    · rw [Memory.bytesFrom_of_lt n m ha, Memory.bytesFrom_of_lt k m ha, List.take_succ_cons, ih (by omega)]
    · rw [Memory.bytesFrom_of_ge _ m (by omega), Memory.bytesFrom_of_ge _ m (by omega), List.take_nil]

/-- The decoder needs only as many operand bytes as the opcode's length says. -/
theorem decodeFrom_take {op : Byte} {l rest : List Byte} {i : Instr} (h : decodeFrom op l = .ok (i, rest)) :
    decodeFrom op (l.take (opcodeLength op - 1)) = .ok (i, []) := by
  obtain ⟨hw, rfl, rfl⟩ := decodeFrom_eq_ok h
  have hlen : opcodeLength i.opcode - 1 = i.operands.length := by
    rw [opcodeLength_opcode hw, ← Instr.length_operands, Nat.add_sub_cancel]
  rw [hlen, List.take_left, ← List.append_nil i.operands]
  exact decodeFrom_opcode_operands hw []

/-- Settles O9: the bytes Execute decodes are those at `pc` up to the instruction's length (R51, R67). -/
theorem stepRunsTheDecodedInstruction : Obligations.StepRunsTheDecodedInstruction := by
  intro s i rest hr hpc hin hdecode
  rw [Memory.bytesFrom_of_lt 2 s.mem hpc, decode_cons_ok] at hdecode
  obtain ⟨-, ho, -⟩ := decodeFrom_eq_ok hdecode
  have hread : Memory.read s.pc.toNat s.mem = some i.opcode := by rw [ho]; exact Memory.read_of_lt s.mem hpc
  have hat := State.atExecute_of_fetch hr hread
  have hoperands : decodeFrom s.atExecute.ir (operandBytes s.atExecute) = .ok (i, []) := by
    have htake := decodeFrom_take hdecode
    rw [← ho, Memory.take_bytesFrom (Nat.sub_le_sub_right (opcodeLength_le _) 1)] at htake
    rw [hat]
    exact htake
  obtain ⟨t, ht, -⟩ := exec_effect i s.atExecute
  refine ⟨t, hat ▸ ht, ?_⟩
  calc step s = executeOpcode s.atExecute := step_running hin (by rw [hr]; decide) hpc
    _ = settle (exec i s.atExecute) := executeOpcode_ok hpc hoperands
    _ = .next (continueRun t) := by rw [ht, settle]

/-! ### The cut-off instructions (R71) -/

theorem executeOpcode_of_three_outside (hir : s.ir ∈ [(0x01 : Byte), 0x02, 0x03]) (hge : 14 ≤ s.pc.toNat)
    (hpc : s.pc.toNat < 16) : executeOpcode s = .next (continueRun (s.abandon 3)) := by
  have hlen : opcodeLength s.ir = 3 := by
    simp only [List.mem_cons, List.not_mem_nil, or_false] at hir
    rcases hir with h | h | h <;> rw [h] <;> rfl
  exact executeOpcode_truncated hpc (decodeFrom_truncated.1 s.ir hir _ (operandBytes_short hlen hge))

theorem executeOpcode_of_jump_outside (hir : s.ir = 0x04) (hpc : s.pc.toNat = 15) :
    executeOpcode s = .next (continueRun (s.abandon 2)) := by
  refine executeOpcode_truncated (by omega) (t := ⟨2⟩) ?_
  rw [hir, operandBytes_none (by omega)]
  exact decodeFrom_truncated.2

/-- Settles O10: the abandoned instruction leaves `pc` at 16 or more, where the run loop's test fails (R69, R71). -/
theorem truncatedInstructionEndsTheRun : Obligations.TruncatedInstructionEndsTheRun := by
  intro s op hr hpc hin hread
  have hat := State.atExecute_of_fetch hr hread
  have hstep := step_running hin (by rw [hr]; decide) hpc
  constructor
  · rintro ⟨hop, hge⟩
    have hir : s.atExecute.ir ∈ [(0x01 : Byte), 0x02, 0x03] := by
      rw [hat]
      simpa using hop
    have hend : 16 ≤ (s.atExecute.abandon 3).pc.toNat := by
      show 16 ≤ (s.pc + BitVec.ofNat 8 3).toNat
      bv_omega
    rw [hstep, executeOpcode_of_three_outside hir hge hpc, continueRun_of_ge hend, hat]
    rfl
  · rintro ⟨hop, h15⟩
    have hir : s.atExecute.ir = 0x04 := by rw [hat, hop]
    have h17 : s.pc + BitVec.ofNat 8 2 = 17 := by bv_omega
    have hend : 16 ≤ (s.atExecute.abandon 2).pc.toNat := by
      show 16 ≤ (s.pc + BitVec.ofNat 8 2).toNat
      rw [h17]
      decide
    rw [hstep, executeOpcode_of_jump_outside hir h15, continueRun_of_ge hend, State.abandon_eq, hat, h17]
    rfl

/-! ### What a step of a run changes -/

/-- The state Fetch leaves (R66). -/
def State.fetched (s : State) : State := (s.setIr (Memory.lookup s.pc.toNat s.mem)).setRunState .execute

/-- Fetch and Execute are one action, whatever was reported before. -/
theorem runOne_action (hpc : s.pc.toNat < 16) :
    ∃ a : Action, runOne s = .next (continueRun (a.apply s.fetched)) ∧
      ∀ before : List Event, runOne { s with events := before } =
        .next { continueRun (a.apply s.fetched) with events := before ++ a.reports s.pc } := by
  obtain ⟨a, -, ha⟩ := executeOpcode_action hpc (Memory.lookup s.pc.toNat s.mem) s.mem
  refine ⟨a, (runOne_of_lt hpc).trans (ha s.fetched rfl rfl rfl), fun before => ?_⟩
  calc runOne { s with events := before }
      = executeOpcode { s.fetched with events := before } := runOne_of_lt (s := { s with events := before }) hpc
    _ = .next (continueRun (a.apply { s.fetched with events := before })) := ha _ rfl rfl rfl
    _ = .next { continueRun (a.apply s.fetched) with events := before ++ a.reports s.pc } :=
      congrArg (fun u => Host.Outcome.next (continueRun u)) (a.apply_with_events s.fetched before)

/-- Settles O26: the action is chosen without the events, and adds its own report to them (R75). -/
theorem stepChangesOnlyWhatItMay : Obligations.StepChangesOnlyWhatItMay := by
  intro s _ hpc
  obtain ⟨a, hrun, hbefore⟩ := runOne_action hpc
  refine ⟨continueRun (a.apply s.fetched), a.reports s.pc, hrun, ?_, ?_, a.reports_length s.pc,
    fun e he => a.origin_of_mem_reports he, hbefore⟩
  · rw [continueRun_ir, Action.apply_ir]
    exact Memory.read_of_lt s.mem hpc
  · simp only [continueRun_ir, Action.apply_ir, continueRun_pc, Action.apply_pc, continueRun_runState]
    exact congrArg continueRun (a.apply_frame s.fetched)

/-- Settles O27: the four kinds of move, each with the `run_state` it ends in (R65, R69). -/
theorem runStateTransitions : Obligations.RunStateTransitions := by
  intro s
  refine ⟨fun hin => ⟨_, step_rst hin, rfl⟩, fun hin hr => ?_, fun _ hpc => ⟨_, fetchOpcode_of_lt hpc, rfl⟩,
    fun hin hr hpc => ?_⟩
  · rw [step_idle (by rw [hin]; decide) hr, hin]
    by_cases hpc : s.pc.toNat < 16
    · rw [if_pos hpc]
      exact congrArg Host.Outcome.next (performRun_of_lt (s := s.dropInput) hpc)
    · rw [if_neg hpc, ← hr]
      exact congrArg Host.Outcome.next (performRun_of_ge (s := s.dropInput) (Nat.not_lt.mp hpc))
  · obtain ⟨a, -, ha⟩ := step_running_action hin hr hpc
    exact ⟨_, ha, rfl⟩

/-- Settles O28: no action goes further than 18, and the run loop's test is against 16 (R69, R70). -/
theorem runEndsExactlyPastMemory : Obligations.RunEndsExactlyPastMemory := by
  intro s t hr _ hin h
  obtain ⟨a, hle, rfl⟩ := step_cases_of_running hr hin h
  rw [continueRun_runState, continueRun_pc, Action.apply_pc]
  by_cases hlt : a.target.toNat < 16
  · rw [if_pos hlt]
    exact ⟨⟨nofun, by omega⟩, ⟨fun _ => hlt, fun _ => by decide⟩⟩
  · rw [if_neg hlt]
    exact ⟨⟨fun _ => by omega, fun _ => rfl⟩, ⟨fun h => absurd rfl h, fun h => absurd h hlt⟩⟩

/-- Settles O31: no action of a run stores (20_memory R34). -/
theorem memoryConstantDuringRun : Obligations.MemoryConstantDuringRun := by
  intro s t hr hin h
  obtain ⟨a, -, rfl⟩ := step_cases_of_running hr hin h
  rw [continueRun_mem, Action.apply_mem, State.atExecute_mem]

/-! ### The next `pc` (R72) -/

section
variable {pc : Nat} {m : Memory}

theorem nextPc_of_one_byte (h : (Memory.lookup pc m).toNat = 0 ∨ 5 ≤ (Memory.lookup pc m).toNat) :
    nextPc pc m = pc + 1 :=
  if_pos h

theorem nextPc_of_three_bytes (h1 : 1 ≤ (Memory.lookup pc m).toNat) (h3 : (Memory.lookup pc m).toNat ≤ 3) :
    nextPc pc m = pc + 3 := by
  unfold nextPc
  rw [if_neg (by omega), if_pos (by omega)]

theorem nextPc_of_jump (h : (Memory.lookup pc m).toNat = 4) :
    nextPc pc m = if pc = 15 then pc + 2
      else if (Memory.lookup (pc + 1) m).toNat < 16 then (Memory.lookup (pc + 1) m).toNat else pc := by
  unfold nextPc
  rw [if_neg (by omega), if_neg (by omega)]

end

theorem exec_three_bytes_pc {g : Byte → Byte → Instr} (hg : g = Instr.load ∨ g = Instr.add ∨ g = Instr.sub)
    {b1 b2 : Byte} (h : exec (g b1 b2) s = .next t) : t.pc = s.pc + 3 := by
  have harith (f : Byte → Byte → Byte) : (arithmetic f b1 b2 s).pc = s.pc + 3 := by
    rcases arithmetic_cases f b1 b2 s with ⟨-, he⟩ | ⟨r1, r2, -, -, he⟩ | ⟨bad, -, he⟩ <;> rw [he] <;> rfl
  rcases hg with rfl | rfl | rfl
  · rcases execLoad_cases b1 b2 s with ⟨-, he⟩ | ⟨r, -, he⟩ | ⟨-, he⟩ <;> cases he.symm.trans h <;> rfl
  · cases h
    exact harith _
  · cases h
    exact harith _

theorem exec_jump_pc {address : Byte} (hpc : s.pc.toNat ≤ 14) (h : exec (.jump address) s = .next t) :
    t.pc.toNat = if address.toNat < 16 then address.toNat else s.pc.toNat := by
  by_cases ha : address.toNat < 16
  · cases (exec_jump_of_valid hpc ha).symm.trans h
    rw [if_pos ha]
    rfl
  · cases (exec_jump_of_invalid hpc (by omega)).symm.trans h
    rw [if_neg ha]
    rfl

/-- Execute of the opcode at `pc` leaves `pc` where R72 says. -/
theorem executeOpcode_nextPc (hpc : s.pc.toNat < 16) (hir : Memory.lookup s.pc.toNat s.mem = s.ir)
    (h : executeOpcode s = .next t) : t.pc.toNat = nextPc s.pc.toNat s.mem := by
  have three : (s.pc + 3).toNat = s.pc.toNat + 3 := by bv_omega
  rcases executeOpcode_cases hpc with ⟨h0, he⟩ | ⟨g, hg, hcases⟩ | ⟨h4, hcases⟩ | ⟨h5, i, -, -, hi, he⟩
  · cases he.symm.trans h
    rw [nextPc_of_one_byte (.inl (by rw [hir, h0]; rfl))]
    show (s.pc + 1).toNat = _
    bv_omega
  · have hop : 1 ≤ s.ir.toNat ∧ s.ir.toNat ≤ 3 := by
      rcases hg with ⟨hop, -⟩ | ⟨hop, -⟩ | ⟨hop, -⟩ <;> rw [hop] <;> decide
    rw [nextPc_of_three_bytes (by rw [hir]; exact hop.1) (by rw [hir]; exact hop.2), ← three]
    rcases hcases with ⟨-, he⟩ | ⟨-, he, -⟩
    · obtain ⟨u, hu, rfl⟩ := settle_eq_next (he.symm.trans h)
      rw [continueRun_pc, exec_three_bytes_pc (by tauto) hu]
    · cases he.symm.trans h
      rfl
  · rw [nextPc_of_jump (by rw [hir, h4]; rfl)]
    rcases hcases with ⟨hle, he⟩ | ⟨h15, he, -⟩
    · obtain ⟨u, hu, rfl⟩ := settle_eq_next (he.symm.trans h)
      rw [if_neg (by omega), continueRun_pc, exec_jump_pc hle hu]
    · cases he.symm.trans h
      rw [if_pos h15]
      show (s.pc + BitVec.ofNat 8 2).toNat = _
      bv_omega
  · rw [hi] at he
    cases he.symm.trans h
    rw [nextPc_of_one_byte (.inr (by rw [hir]; exact h5))]
    show (s.pc + 1).toNat = _
    bv_omega

/-- Settles O29: the step executes the opcode that Fetch read at `pc` (R72). -/
theorem nextPcFromPcAndMemoryAlone : Obligations.NextPcFromPcAndMemoryAlone := by
  intro s hr hpc hin
  have hrun : s.runState ≠ .idle := by rw [hr]; decide
  obtain ⟨a, -, ha⟩ := step_running_action hin hrun hpc
  refine ⟨_, ha, executeOpcode_nextPc (s := s.atExecute) hpc ?_ ((step_running hin hrun hpc).symm.trans ha)⟩
  rw [State.atExecute_of_fetch hr (Memory.read_of_lt s.mem hpc)]

end Sys2Proof.Machine
end

section
/-! What the host collects (10_state R22, 93_implementation_defined U1 and U2). -/

namespace Sys2Proof.Machine

variable {s t : State}

theorem perform_extends_output (c : Command) (s : State) :
    s.events <+: (perform c s).events ∧ s.responses <+: (perform c s).responses := by
  rcases perform_cases c s with ⟨-, he⟩ | ⟨st, d, he⟩ | ⟨a, v, -, he⟩ | ⟨-, -, he⟩ | ⟨-, -, he⟩ <;> rw [he]
  · exact ⟨List.prefix_rfl, List.prefix_append _ _⟩
  · exact ⟨List.prefix_rfl, List.prefix_append _ _⟩
  · exact ⟨List.prefix_rfl, List.prefix_append _ _⟩
  · exact ⟨List.prefix_rfl, List.prefix_rfl⟩
  · exact ⟨List.prefix_rfl, List.prefix_rfl⟩

theorem idleOne_extends_output (input : HostInput) (s : State) :
    s.events <+: (idleOne input s).events ∧ s.responses <+: (idleOne input s).responses := by
  cases input with
  | quiet => exact ⟨List.prefix_rfl, List.prefix_rfl⟩
  | command c => exact perform_extends_output c s
  | rst => exact ⟨List.prefix_rfl, List.prefix_rfl⟩

/-- Settles O37: a reset keeps what was collected, a host's move and an action only append to it (R22). -/
theorem collectedOutputIsNeverErased : Obligations.CollectedOutputIsNeverErased := by
  intro s t h
  rcases step_cases h with ⟨-, rfl⟩ | ⟨-, -, rfl⟩ | ⟨-, -, -, a, -, rfl⟩
  · exact ⟨List.prefix_rfl, List.prefix_rfl⟩
  · exact idleOne_extends_output s.input s.dropInput
  · rw [continueRun_events, continueRun_responses, Action.apply_events, Action.apply_responses]
    exact ⟨List.prefix_append _ _, List.prefix_rfl⟩

/-! ### The fault mark -/

/-- With an InvalidRegister or InvalidAddress just reported, a fault is recorded. -/
theorem noFaultRecorded_ne_true_of_report {d : Diagnostic} (hd : d ≠ .unknownInstruction) {origin info : Byte}
    (h : t.events = s.events ++ [⟨d, origin, info⟩]) : t.noFaultRecorded ≠ true := by
  simp [State.noFaultRecorded, h, hd]

theorem State.abandon_noFaultRecorded (s : State) (len : Nat) : (s.abandon len).noFaultRecorded ≠ true :=
  noFaultRecorded_ne_true_of_report (d := .invalidAddress) (by decide) (congrArg State.events (s.abandon_eq len))

theorem arithmetic_of_noFaultRecorded {f : Byte → Byte → Byte} {b1 b2 : Byte}
    (h : (arithmetic f b1 b2 s).noFaultRecorded = true) : s.pc.toNat ≤ 13 ∧ b1.toNat < 4 ∧ b2.toNat < 4 := by
  have hpc : s.pc.toNat ≤ 13 := by
    by_contra hge
    rw [arithmetic_of_outside f b1 b2 (by omega)] at h
    exact s.abandon_noFaultRecorded 3 h
  refine ⟨hpc, ?_⟩
  rcases arithmetic_cases f b1 b2 s with ⟨hgt, -⟩ | ⟨r1, r2, h1, h2, -⟩ | ⟨bad, -, he⟩
  · omega
  · exact ⟨h1 ▸ r1.isLt, h2 ▸ r2.isLt⟩
  · rw [he] at h
    exact absurd h (noFaultRecorded_ne_true_of_report (by decide) rfl)

theorem noFaultRecorded_of_prefix (hp : s.events <+: t.events) (ht : t.noFaultRecorded = true) :
    s.noFaultRecorded = true := by
  rw [State.noFaultRecorded, List.all_eq_true] at ht ⊢
  exact fun e he => ht e (hp.subset he)

theorem step_of_run_succ {n : Nat} (h : Host.Core.run Sys2Proof.core (n + 1) s = .next t) :
    ∃ u, step s = .next u ∧ Host.Core.run Sys2Proof.core n u = .next t := by
  rcases step_next_or_fault s with ⟨u, hu⟩ | ⟨-, -, hfault⟩
  · exact ⟨u, hu, (run_succ n hu).symm.trans h⟩
  · have hcore : Host.Core.step Sys2Proof.core s = .fault .ranPastMemory := hfault
    simp only [Host.Core.run, hcore, reduceCtorEq] at h

/-- What was collected before any number of steps is still there after them. -/
theorem run_extends_events {n : Nat} (h : Host.Core.run Sys2Proof.core n s = .next t) : s.events <+: t.events := by
  induction n generalizing s with
  | zero =>
    cases (run_zero s).symm.trans h
    exact List.prefix_rfl
  | succ n ih =>
    obtain ⟨u, hu, hrun⟩ := step_of_run_succ h
    exact (collectedOutputIsNeverErased s u hu).1.trans (ih hrun)

/-- Settles O38: the abandoned fetch and the invalid index report what the mark forbids, and no step erases a report. -/
theorem undefinedCasesLeaveAFaultMark : Obligations.UndefinedCasesLeaveAFaultMark := by
  refine ⟨fun s t b1 b2 hclean => ⟨fun i hi h => ?_, fun h => ?_, fun h => ?_⟩, fun n s t h hclean => ?_⟩
  · simp only [List.mem_cons, List.not_mem_nil, or_false] at hi
    rcases hi with rfl | rfl <;> cases h <;> exact arithmetic_of_noFaultRecorded hclean
  · by_contra hge
    cases (exec_load_of_outside b1 b2 (by omega)).symm.trans h
    exact s.abandon_noFaultRecorded 3 hclean
  · by_contra hge
    cases (exec_jump_of_outside b1 (by omega)).symm.trans h
    exact s.abandon_noFaultRecorded 2 hclean
  · exact noFaultRecorded_of_prefix (run_extends_events h) hclean

end Sys2Proof.Machine
end

section
/-! Runs with a silent host (40_cycle R73, 44_jump R102, 30_encoding R62). -/

namespace Sys2Proof.Machine

variable {s t : State}

theorem input_ne_rst_of_silent (h : s.hostIn = []) : s.input ≠ .rst := by
  rw [State.input, h]
  decide

/-- One step of a run: `pc` follows `nextPc`, memory stays, and the run goes on exactly below 16. -/
theorem step_silent (hr : s.runState = .fetch) (hpc : s.pc.toNat < 16) (hin : s.hostIn = []) :
    ∃ t, step s = .next t ∧ t.mem = s.mem ∧ t.hostIn = [] ∧ t.pc.toNat = nextPc s.pc.toNat s.mem ∧
      t.runState = if t.pc.toNat < 16 then .fetch else .idle := by
  have hrun : s.runState ≠ .idle := by rw [hr]; decide
  have hne := input_ne_rst_of_silent hin
  obtain ⟨t, ht, hnext⟩ := nextPcFromPcAndMemoryAlone s hr hpc hne
  obtain ⟨a, -, rfl⟩ := step_cases_of_running hrun hne ht
  refine ⟨_, ht, ?_, ?_, hnext, rfl⟩
  · rw [continueRun_mem, Action.apply_mem, State.atExecute_mem]
  · rw [continueRun_hostIn, Action.apply_hostIn, State.atExecute_hostIn, hin, List.tail_nil]

/-! ### Ends within 16 steps or never -/

/-- A sequence given by its successor that stays below `N` for its first `N + 1` values has repeated one by then, and stays
below `N` for ever. -/
theorem iterate_lt_of_forall_le {f : ℕ → ℕ} {p N : ℕ} (h : ∀ k ≤ N, f^[k] p < N) (n : ℕ) : f^[n] p < N := by
  obtain ⟨i, j, hij, hj, heq⟩ : ∃ i j, i < j ∧ j ≤ N ∧ f^[i] p = f^[j] p := by
    obtain ⟨i, hi, j, hj, hne, heq⟩ := Finset.exists_ne_map_eq_of_card_lt_of_maps_to
      (s := Finset.range (N + 1)) (t := Finset.range N) (f := fun k => f^[k] p) (by simp)
      (fun k hk => Finset.mem_coe.mpr (Finset.mem_range.mpr (h k (by simpa [Nat.lt_succ_iff] using hk))))
    rw [Finset.mem_range] at hi hj
    rcases Nat.lt_or_gt_of_ne hne with hlt | hlt
    · exact ⟨i, j, hlt, by omega, heq⟩
    · exact ⟨j, i, hlt, by omega, heq.symm⟩
  have repeats (n : ℕ) : ∃ k < j, f^[n] p = f^[k] p := by
    induction n with
    | zero => exact ⟨0, by omega, rfl⟩
    | succ n ih =>
      obtain ⟨k, hk, hn⟩ := ih
      have hsucc : f^[n + 1] p = f^[k + 1] p := by
        rw [Function.iterate_succ_apply', hn, ← Function.iterate_succ_apply' f]
      by_cases hlast : k + 1 = j
      · exact ⟨i, hij, by rw [hsucc, hlast, heq]⟩
      · exact ⟨k + 1, by omega, hsucc⟩
  obtain ⟨k, hk, hn⟩ := repeats n
  rw [hn]
  exact h k (by omega)

/-- The next `pc` in the memory `m`, as a function to iterate. -/
def follow (m : Memory) (pc : Nat) : Nat := nextPc pc m

/-- After `n` steps of a run with a silent host: it has ended on the way, at the first `pc` of 16 or more, or it is still in
progress and every `pc` so far was below 16. -/
theorem run_silent (n : Nat) (hr : s.runState = .fetch) (hpc : s.pc.toNat < 16) (hin : s.hostIn = []) :
    (∃ k t, k ≤ n ∧ Host.Core.run Sys2Proof.core k s = .next t ∧ t.runState = .idle ∧
      16 ≤ (follow s.mem)^[k] s.pc.toNat) ∨
    (∃ t, Host.Core.run Sys2Proof.core n s = .next t ∧ t.runState = .fetch ∧
      ∀ k ≤ n, (follow s.mem)^[k] s.pc.toNat < 16) := by
  induction n generalizing s with
  | zero => exact .inr ⟨s, rfl, hr, fun k hk => by rw [Nat.le_zero.mp hk]; exact hpc⟩
  | succ n ih =>
    obtain ⟨u, hu, hmem, hin', hnext, hrs⟩ := step_silent hr hpc hin
    have hiter (k : Nat) : (follow s.mem)^[k + 1] s.pc.toNat = (follow u.mem)^[k] u.pc.toNat := by
      rw [Function.iterate_succ_apply, hmem, hnext, follow]
    by_cases hlt : u.pc.toNat < 16
    · rw [if_pos hlt] at hrs
      rcases ih hrs hlt hin' with ⟨k, t, hk, ht, hidle, hge⟩ | ⟨t, ht, hfetch, hall⟩
      · exact .inl ⟨k + 1, t, by omega, (run_succ k hu).trans ht, hidle, (hiter k).symm ▸ hge⟩
      · refine .inr ⟨t, (run_succ n hu).trans ht, hfetch, fun k hk => ?_⟩
        cases k with
        | zero => exact hpc
        | succ k => exact (hiter k).symm ▸ hall k (by omega)
    · rw [if_neg hlt] at hrs
      exact .inl ⟨1, u, by omega, (run_succ 0 hu).trans (run_zero u), hrs,
        (hiter 0).symm ▸ (by simpa using hlt)⟩

/-- Settles O30: 17 values of `pc` below 16 repeat one, and then `pc` stays below 16 for ever (R73). -/
theorem runEndsWithinSixteenStepsOrNever : Obligations.RunEndsWithinSixteenStepsOrNever := by
  intro s hr hpc hin
  rcases run_silent 16 hr hpc hin with ⟨k, t, hk, ht, hidle, -⟩ | ⟨-, -, -, hall⟩
  · exact .inl ⟨k, t, hk, ht, hidle⟩
  · refine .inr fun n => ?_
    rcases run_silent n hr hpc hin with ⟨k, -, -, -, -, hge⟩ | ⟨t, ht, hfetch, -⟩
    · exact absurd (iterate_lt_of_forall_le hall k) (Nat.not_lt.mpr hge)
    · exact ⟨t, ht, hfetch⟩

/-! ### The livelock of an invalid JUMP -/

theorem executeOpcode_of_jump {address : Byte} (hir : s.ir = 0x04) (hpc : s.pc.toNat ≤ 14)
    (haddr : Memory.read (s.pc.toNat + 1) s.mem = some address) :
    executeOpcode s = settle (exec (.jump address) s) := by
  obtain ⟨-, hlookup⟩ := Memory.read_eq_some.mp haddr
  refine executeOpcode_ok (rest := []) (by omega) ?_
  rw [operandBytes_two (by rw [hir]; rfl) hpc, hlookup, hir, decodeFrom_jump]

theorem step_invalid_jump {address : Byte} (hr : s.runState = .fetch) (hin : s.hostIn = []) (hpc : s.pc.toNat ≤ 14)
    (hop : Memory.read s.pc.toNat s.mem = some 0x04) (haddr : Memory.read (s.pc.toNat + 1) s.mem = some address)
    (hge : 16 ≤ address.toNat) :
    step s = .next { s with ir := 0x04, events := s.events ++ [⟨.invalidAddress, s.pc, address⟩] } := by
  have hlt : s.pc.toNat < 16 := by omega
  have hat := State.atExecute_of_fetch hr hop
  calc step s = executeOpcode s.atExecute :=
        step_running (input_ne_rst_of_silent hin) (by rw [hr]; decide) hlt
    _ = settle (exec (.jump address) s.atExecute) := executeOpcode_of_jump (by rw [hat]) hpc haddr
    _ = .next (continueRun (s.atExecute.raise .invalidAddress address)) :=
      congrArg settle (exec_jump_of_invalid (s := s.atExecute) hpc hge)
    _ = .next ((s.atExecute.raise .invalidAddress address).setRunState .fetch) :=
      congrArg Host.Outcome.next (continueRun_of_lt (s := s.atExecute.raise .invalidAddress address) hlt)
    _ = .next { s with ir := 0x04, events := s.events ++ [⟨.invalidAddress, s.pc, address⟩] } := by
      rw [hat]
      simp only [State.raise, State.setRunState, hin, hr, List.tail_nil]

/-- Settles O32: the step leads back to a state at the same JUMP, with one event more (R102). -/
theorem invalidJumpRepeatsForEver : Obligations.InvalidJumpRepeatsForEver := by
  intro s address n hr hin hpc hop haddr hge
  induction n generalizing s with
  | zero => exact run_succ 0 (step_invalid_jump hr hin hpc hop haddr hge)
  | succ n ih =>
    have hevents (l : List Event) (e : Event) :
        (l ++ [e]) ++ List.replicate (n + 1) e = l ++ List.replicate (n + 1 + 1) e := by
      rw [List.append_assoc, List.singleton_append, ← List.replicate_succ]
    have hrest := ih { s with ir := 0x04, events := s.events ++ [⟨.invalidAddress, s.pc, address⟩] }
      hr hin hpc hop haddr
    rw [hevents] at hrest
    exact (run_succ (n + 1) (step_invalid_jump hr hin hpc hop haddr hge)).trans hrest

/-! ### Cleared memory -/

theorem step_cleared (hr : s.runState = .fetch) (hin : s.hostIn = []) (hmem : s.mem = []) (hpc : s.pc.toNat < 16) :
    step s = .next { s with
      ir := 0x00, pc := s.pc + 1, runState := if s.pc.toNat = 15 then .idle else .fetch } := by
  have hat := State.atExecute_of_fetch hr (hmem ▸ Memory.read_nil hpc)
  have hexecute := executeOpcode_of_noop (s := s.atExecute) hpc (by rw [hat])
  rw [step_running (input_ne_rst_of_silent hin) (by rw [hr]; decide) hpc, hexecute, exec_noop, settle,
    continueRun_of_pc_succ (s := s) hpc rfl, hat]
  simp only [State.setRunState, hin, List.tail_nil]

/-- Settles O33: by induction on the cells left, each a NOOP (R62). -/
theorem clearedMemoryCarriesPcToSixteen : Obligations.ClearedMemoryCarriesPcToSixteen := by
  intro s k hr hin hmem hk hk16 hpc
  induction k generalizing s with
  | zero => omega
  | succ k ih =>
    have hstep := step_cleared hr hin hmem (by omega)
    have hnum : (s.pc + 1).toNat = s.pc.toNat + 1 := by bv_omega
    by_cases hlast : k = 0
    · subst hlast
      have h16 : s.pc + 1 = 16 := by bv_omega
      rw [if_pos (by omega), h16] at hstep
      refine ⟨fun j hj => ?_, run_succ 0 hstep⟩
      rw [Nat.lt_one_iff.mp hj]
      exact ⟨s, rfl, hr⟩
    · rw [if_neg (by omega)] at hstep
      obtain ⟨hgoing, hend⟩ := ih { s with ir := 0x00, pc := s.pc + 1, runState := .fetch } rfl hin hmem
        (by omega) (by omega) (by show (s.pc + 1).toNat = _; omega)
      refine ⟨fun j hj => ?_, (run_succ k hstep).trans hend⟩
      cases j with
      | zero => exact ⟨s, rfl, hr⟩
      | succ j =>
        obtain ⟨t, ht, hfetch⟩ := hgoing j (by omega)
        exact ⟨t, (run_succ j hstep).trans ht, hfetch⟩

end Sys2Proof.Machine
end

section
/-! Reset and the host (45_host_commands, 70_reset_and_hazards). -/

namespace Sys2Proof.Machine

variable {s t : State}

/-! ### Reset -/

/-- Settles O39: nothing is listed in the memory, and every other field is zero as written (R23). -/
theorem resetStateIsAllZero : Obligations.ResetStateIsAllZero := by
  refine ⟨fun a ha => Memory.read_nil ha, fun i => ?_, rfl, rfl, rfl, rfl⟩
  fin_cases i <;> rfl

/-- Settles O40: `rst` goes before everything else (R142). -/
theorem resetInputForcesTheResetState : Obligations.ResetInputForcesTheResetState :=
  fun _ hin => step_rst hin

/-! ### The commands while idle -/

/-- An idle block performs the command presented (R105). -/
theorem step_command {c : Command} (hr : s.runState = .idle) (hin : s.input = .command c) :
    step s = .next (perform c s.dropInput) := by
  rw [step_idle (by rw [hin]; nofun) hr, hin, idleOne]

theorem performReadMemory_of_some {addr v : Byte} (h : Memory.read addr.toNat s.mem = some v) :
    performReadMemory addr s = s.respond .ok (some v) := by
  rw [performReadMemory, h]

theorem performReadMemory_of_none {addr : Byte} (h : Memory.read addr.toNat s.mem = none) :
    performReadMemory addr s = s.respond .invalidAddress (some 0x00) := by
  rw [performReadMemory, h]

/-- Settles O41: the command is performed as `rst` is, with a response (R106). -/
theorem resetCommandZeroesEverything : Obligations.ResetCommandZeroesEverything :=
  fun _ hr hin => step_command hr hin

/-- Settles O42: the arbiter's answer decides the response (R107). -/
theorem readMemoryAnswersTheCell : Obligations.ReadMemoryAnswersTheCell := by
  intro s addr hr hin
  rw [step_command hr hin, perform]
  cases h : Memory.read addr.toNat s.mem with
  | some v => exact congrArg Host.Outcome.next (performReadMemory_of_some (s := s.dropInput) h)
  | none => exact congrArg Host.Outcome.next (performReadMemory_of_none (s := s.dropInput) h)

/-- Settles O43: below 16 the store of `Memory.insert`, from 16 on a response alone (R108). -/
theorem writeMemoryStoresOneByte : Obligations.WriteMemoryStoresOneByte := by
  intro s addr value hm hr hin
  rw [step_command hr hin, perform]
  constructor
  · intro hlt
    exact ⟨_, congrArg Host.Outcome.next (performWriteMemory_of_lt value hlt), rfl,
      Memory.read_insert_same value hm hlt, fun a ha => Memory.read_insert_other s.mem value ha⟩
  · intro hge
    exact congrArg Host.Outcome.next (performWriteMemory_of_ge value hge)

/-- Settles O44: an index below 4 names a register, any other is refused (R109). -/
theorem readRegisterAnswersTheRegister : Obligations.ReadRegisterAnswersTheRegister := by
  intro s idx hr hin
  rw [step_command hr hin, perform]
  constructor
  · intro i hi
    exact congrArg Host.Outcome.next (performReadRegister_of_lt hi)
  · intro hge
    exact congrArg Host.Outcome.next (performReadRegister_of_ge hge)

/-- Settles O45: the write's step and then the read's, which finds the byte stored (R30). -/
theorem hostReadsBackWhatItWrote : Obligations.HostReadsBackWhatItWrote := by
  intro s addr value l hm hr haddr hin
  obtain ⟨u, hwrite, hu, hread, -⟩ := (writeMemoryStoresOneByte s addr value hm hr (by rw [State.input, hin]; rfl)).1 haddr
  have hur : u.runState = .idle := by rw [hu]; exact hr
  have huin : u.hostIn = .command (.readMemory addr) :: l := by rw [hu, hin]; rfl
  have huresp : u.responses = s.responses ++ [⟨.ok, none⟩] := by rw [hu]
  have hanswer := readMemoryAnswersTheCell u addr hur (by rw [State.input, huin]; rfl)
  rw [hread] at hanswer
  refine ⟨_, (run_succ 1 hwrite).trans (run_succ 0 hanswer), ?_, ?_⟩
  · show u.hostIn.tail = l
    rw [huin, List.tail_cons]
  · show u.responses ++ [_] = _
    rw [huresp, List.append_assoc, List.singleton_append]

/-! ### The host while nothing is accepted -/

/-- A run in progress looks at the host's action only to tell `rst` from the rest. -/
theorem step_eq_of_dropInput_eq {u : State} (hr : s.runState ≠ .idle) (hs : s.input ≠ .rst) (hu : u.input ≠ .rst)
    (h : s.dropInput = u.dropInput) : step s = step u := by
  have hrun : s.dropInput.runState = u.dropInput.runState := by rw [h]
  cases hrs : s.runState with
  | idle => exact absurd hrs hr
  | fetch => rw [step_fetch hs hrs, step_fetch hu (hrun.symm.trans hrs), h]
  | execute => rw [step_execute hs hrs, step_execute hu (hrun.symm.trans hrs), h]

/-- Settles O46: without `rst` the step is that of the state with the host's action consumed (R105). -/
theorem commandsDuringARunAreDropped : Obligations.CommandsDuringARunAreDropped := by
  intro s c l hr
  refine ⟨step_eq_of_dropInput_eq (s := { s with hostIn := .command c :: l }) hr nofun nofun rfl, fun t h => ?_⟩
  obtain ⟨a, -, rfl⟩ := step_cases_of_running (s := { s with hostIn := .command c :: l }) hr nofun h
  constructor
  · rw [continueRun_responses, Action.apply_responses, State.atExecute_responses]
  · rw [continueRun_hostIn, Action.apply_hostIn, State.atExecute_hostIn, List.tail_cons]

/-- Settles O47: the idle block's move is the host's, and there is none (R135). -/
theorem idleBlockHoldsItsState : Obligations.IdleBlockHoldsItsState := by
  intro s hr hin
  rw [step_idle (by rw [hin]; decide) hr, hin]
  rfl

/-- `t` agrees with `s` but for memory, the host's coming actions and the responses: what commands other than `reset` and a
`run` that starts can change. -/
def SameBlock (s t : State) : Prop :=
  t.runState = s.runState ∧ t.pc = s.pc ∧ t.regs = s.regs ∧ t.flags = s.flags ∧ t.ir = s.ir ∧ t.events = s.events

theorem SameBlock.trans {u : State} (h : SameBlock s t) (h' : SameBlock t u) : SameBlock s u := by
  obtain ⟨hrun, hpc, hregs, hflags, hir, hevents⟩ := h
  obtain ⟨hrun', hpc', hregs', hflags', hir', hevents'⟩ := h'
  exact ⟨hrun'.trans hrun, hpc'.trans hpc, hregs'.trans hregs, hflags'.trans hflags, hir'.trans hir,
    hevents'.trans hevents⟩

/-- With `pc` past memory the command `run` does nothing (R110). -/
theorem perform_past_memory {c : Command} (hc : c ≠ .reset) (hpc : 16 ≤ s.pc.toNat) :
    SameBlock s (perform c s) ∧ (perform c s).hostIn = s.hostIn := by
  rcases perform_cases c s with ⟨hreset, -⟩ | ⟨st, d, he⟩ | ⟨a, v, -, he⟩ | ⟨-, hlt, -⟩ | ⟨-, -, he⟩
  · exact absurd hreset hc
  · rw [he]
    exact ⟨⟨rfl, rfl, rfl, rfl, rfl, rfl⟩, rfl⟩
  · rw [he]
    exact ⟨⟨rfl, rfl, rfl, rfl, rfl, rfl⟩, rfl⟩
  · omega
  · rw [he]
    exact ⟨⟨rfl, rfl, rfl, rfl, rfl, rfl⟩, rfl⟩

theorem step_past_memory (hr : s.runState = .idle) (hpc : 16 ≤ s.pc.toNat)
    (hin : s.input ≠ .rst ∧ s.input ≠ .command .reset) :
    ∃ t, step s = .next t ∧ SameBlock s t ∧ t.hostIn = s.hostIn.tail := by
  cases hi : s.input with
  | quiet => exact ⟨_, idleBlockHoldsItsState s hr hi, ⟨rfl, rfl, rfl, rfl, rfl, rfl⟩, rfl⟩
  | command c =>
    have hc : c ≠ .reset := fun h => hin.2 (by rw [hi, h])
    obtain ⟨hsame, htail⟩ := perform_past_memory (s := s.dropInput) hc hpc
    exact ⟨_, step_command hr hi, hsame, htail⟩
  | rst => exact absurd hi hin.1

/-- What holds of every coming action and of silence holds of the one at this step. -/
theorem input_of_forall {p : HostInput → Prop} (hquiet : p .quiet) (h : ∀ i ∈ s.hostIn, p i) : p s.input := by
  unfold State.input
  cases hin : s.hostIn with
  | nil => exact hquiet
  | cons i l => exact h i (by rw [hin]; exact List.mem_cons_self)

/-- Settles O48: every step of the finished block leaves it finished, so any number of them does (R146). -/
theorem finishedRunNeedsAReset : Obligations.FinishedRunNeedsAReset := by
  intro s n hr hpc hin
  suffices h : ∃ t, Host.Core.run Sys2Proof.core n s = .next t ∧ SameBlock s t by
    obtain ⟨t, ht, hrun, hrest⟩ := h
    exact ⟨t, ht, hrun.trans hr, hrest⟩
  induction n generalizing s with
  | zero => exact ⟨s, rfl, rfl, rfl, rfl, rfl, rfl, rfl⟩
  | succ n ih =>
    have hnow := input_of_forall (p := fun i => i ≠ .rst ∧ i ≠ .command .reset) ⟨nofun, nofun⟩ hin
    obtain ⟨u, hu, hsame, htail⟩ := step_past_memory hr hpc hnow
    obtain ⟨hurun, hupc, hurest⟩ := hsame
    obtain ⟨t, ht, hsame'⟩ := ih u (hurun.trans hr) (hupc ▸ hpc)
      fun i hi => hin i (List.mem_of_mem_tail (htail ▸ hi))
    exact ⟨t, (run_succ n hu).trans ht, SameBlock.trans ⟨hurun, hupc, hurest⟩ hsame'⟩

/-! ### The observation outputs -/

theorem running_eq_true_iff : s.running = true ↔ s.runState ≠ .idle := decide_eq_true_iff

/-- Settles O49: `running` is "not IDLE", and the outputs are tested on it (R20, R111). -/
theorem observationOutputsWhileIdle : Obligations.ObservationOutputsWhileIdle := by
  intro s
  constructor
  · rw [running_eq_true_iff]
    cases s.runState <;> decide
  · intro h
    rw [State.observe, h]
    rfl

end Sys2Proof.Machine
end
